-- ==== Sys2Proof/Word.lean ====
section
/-! DEFINITION. The two word types of FPCV: frame bytes and 16-bit registers (00_scope.md R6, R8). -/

namespace Sys2Proof

/-- An 8-bit unsigned value: a frame byte or the OP or ARG half of a command word (R8, R70). -/
abbrev Byte := BitVec 8

/-- A 16-bit unsigned value: a command word, a response word or a result register (R6). -/
abbrev Word := BitVec 16

end Sys2Proof
end

