-- ==== Sys2Proof/Syntax.lean ====
section
/-! DEFINITION. The commands of FPCV, one constructor per row of opcode_table.json (30_encoding.md R72). -/

namespace Sys2Proof

/-- A command. `arg` is the ARG byte that NOP, CLEAR, DECODE and the reserved opcodes ignore (R73, R75); it is kept
in the syntax so that a command and its word determine each other (DESIGN CHOICE, safe, log entry 8). -/
inductive Instr where
  /-- NOP, OP 0x00 (R90). -/
  | nop (arg : Byte)
  /-- CLEAR, OP 0x01 (R91). -/
  | clear (arg : Byte)
  /-- PUSH b, OP 0x02 (R92). -/
  | push (b : Byte)
  /-- DECODE, OP 0x03 (R111). -/
  | decode (arg : Byte)
  /-- READ a, OP 0x04 (R150). -/
  | read (a : Byte)
  /-- A reserved opcode, OP 0x05 to 0xFF (R74). -/
  | reserved (op arg : Byte)
  deriving DecidableEq, Repr

/-- The rows of opcode_table.json by name (R81). -/
inductive Mnemonic where
  | nop | clear | push | decode | read | reserved
  deriving DecidableEq, Repr

end Sys2Proof
end

