-- ==== Sys2Proof/WellFormed.lean ====
section
/-! DEFINITION. Which terms of `Instr` are commands that a word can select (30_encoding.md R72). -/

namespace Sys2Proof

/-- The one check: a reserved command's OP is 0x05 to 0xFF (R72, R74). Every ARG is legal for every command (R73, R75). -/
def Instr.wellFormed : Instr → Bool
  | .nop _ => true
  | .clear _ => true
  | .push _ => true
  | .decode _ => true
  | .read _ => true
  | .reserved op _ => decide (0x05#8 ≤ op)

end Sys2Proof
end

