-- ==== Sys2Proof/Decode.lean ====
section
/-! DEFINITION. The command word: its decoder, its encoder, and the opcode table as data (30_encoding.md R70 to R75, R81).
A command is exactly one 16-bit parallel word with no byte order (R53, R70), and every word has a meaning (R72), so the
decoder takes a word and never rejects one. -/

namespace Sys2Proof

/-- OP, bits [15:8] of a command word (R70). -/
def opOf (w : Word) : Byte := w.extractLsb' 8 8

/-- ARG, bits [7:0] of a command word (R70). -/
def argOf (w : Word) : Byte := w.extractLsb' 0 8

/-- The decoder of R72: OP selects the command, ARG is its operand byte (R73). -/
def decodeCommand (w : Word) : Instr :=
  if opOf w = 0x00 then .nop (argOf w)
  else if opOf w = 0x01 then .clear (argOf w)
  else if opOf w = 0x02 then .push (argOf w)
  else if opOf w = 0x03 then .decode (argOf w)
  else if opOf w = 0x04 then .read (argOf w)
  else .reserved (opOf w) (argOf w)

/-- The OP byte of a command (R72). -/
def opcodeByte : Instr → Byte
  | .nop _ => 0x00
  | .clear _ => 0x01
  | .push _ => 0x02
  | .decode _ => 0x03
  | .read _ => 0x04
  | .reserved op _ => op

/-- The ARG byte of a command (R73). -/
def argByte : Instr → Byte
  | .nop arg => arg
  | .clear arg => arg
  | .push b => b
  | .decode arg => arg
  | .read a => a
  | .reserved _ arg => arg

/-- The command word of a command: OP in bits [15:8], ARG in bits [7:0] (R70). -/
def encodeCommand (i : Instr) : Word := opcodeByte i ++ argByte i

/-- Which row of the opcode table a command belongs to (R72). -/
def mnemonicOf : Instr → Mnemonic
  | .nop _ => .nop
  | .clear _ => .clear
  | .push _ => .push
  | .decode _ => .decode
  | .read _ => .read
  | .reserved _ _ => .reserved

/-- One row of opcode_table.json: a word `w` matches it when `w &&& mask = pattern` (R81). -/
structure OpcodeRow where
  mnemonic : Mnemonic
  pattern  : Word
  mask     : Word
  deriving DecidableEq, Repr

/-- opcode_table.json, in table order (R81). -/
def opcodeTable : List OpcodeRow :=
  [ ⟨.nop, 0x0000, 0xFF00⟩, ⟨.clear, 0x0100, 0xFF00⟩, ⟨.push, 0x0200, 0xFF00⟩,
    ⟨.decode, 0x0300, 0xFF00⟩, ⟨.read, 0x0400, 0xFF00⟩, ⟨.reserved, 0x0000, 0x0000⟩ ]

/-- "The rows are tried in table order, and the first row that matches selects the command" (R81). -/
def firstMatch (w : Word) : List OpcodeRow → Option Mnemonic
  | [] => none
  | r :: rows => if w &&& r.mask = r.pattern then some r.mnemonic else firstMatch w rows

/-- The command word whose low `nbits` bits are `w`'s and whose other bits are 0. A command has exactly 16 bits (R70):
`none` for a longer number of bits (DESIGN CHOICE, safe, log entry 12). -/
def tableWord (nbits w : Nat) : Option Word :=
  if nbits ≤ 16 then some (BitVec.ofNat 16 (w % 2 ^ nbits)) else none

/-- What the decoder reads from the table's bits `w` of a row of `nbits` bits. -/
def decodeTableWord (nbits w : Nat) : Option Instr := (tableWord nbits w).map decodeCommand

end Sys2Proof
end

