-- ==== Sys2Proof/Config.lean ====
section
/-! DEFINITION. The implementation parameters of 00_scope.md R6. They are fixed and are no state (10_state.md R20).
The spec leaves no value open (93_implementation_defined.md), so there is no free value here. -/

namespace Sys2Proof.Config

/-- `FRAME_BYTES` (R6): the length of a frame. -/
def frameBytes : Nat := 32

/-- `START1` (R6). -/
def start1 : Byte := 0x42

/-- `START2` (R6). -/
def start2 : Byte := 0x4D

/-- `NFIELDS` (R6). -/
def nFields : Nat := 14

/-- `FIELD_BASE` (R6): the byte offset of FIELD[0]. -/
def fieldBase : Nat := 4

/-- `CKSUM_OFF` (R6): the byte offset of the received checksum. -/
def cksumOff : Nat := 30

/-- `MAX_FLEN` (R6, R114, decision D11): the largest frame length that DECODE accepts; the spec's own
choice, followed exactly (DEDUCED, log entry 13). -/
def maxFlen : Nat := 28

end Sys2Proof.Config
end

