-- ==== Sys2Proof/Machine/State.lean ====
section
/-! DEFINITION. The state of FPCV as plain data (10_state.md R20 to R34), the events on its command port, and the reasons a
step could stop, of which FPCV has none. -/

namespace Sys2Proof.Machine

/-- The frame-byte space FBUF (R22, R50): its cells in rising address order, a cell that holds 0x00 left out
(DESIGN CHOICE, safe, log entry 5). -/
abbrev Memory := List Host.Cell

/-- The canonical form of a memory: addresses strictly rise and no listed cell holds 0x00, which is what an unlisted cell
reads as. -/
def Memory.wf : Memory → Bool
  | [] => true
  | c :: m => c.2 != 0 && m.all (fun d => decide (c.1 < d.1)) && Memory.wf m

/-- Every listed cell is one of FBUF[0..31] (R50). -/
def Memory.inFrame (m : Memory) : Bool := m.all fun c => decide (c.1 < 32)

/-- STATUS.CODE (R30). The reserved values 6 and 7 are never produced and have no constructor (I6). -/
inductive Code where
  /-- 0: no DECODE since reset. -/
  | none
  /-- 1: FIELD holds a valid Measurement. -/
  | ok
  /-- 2: the first two bytes do not match the marker. -/
  | invalidStart
  /-- 3: the declared frame length is above 28. -/
  | lenOutOfRange
  /-- 4: FCNT was below 32. -/
  | bufferTooShort
  /-- 5: the computed sum disagrees with the frame's checksum field. -/
  | checksumMismatch
  deriving DecidableEq, Repr

/-- STATUS (R29): CODE, OVR and ILL. Bits [15:5] read 0 and are never written, so nothing holds them
(DESIGN CHOICE, safe, log entry 6). -/
structure Status where
  /-- The outcome of the last DECODE (R30). -/
  code : Code
  /-- Sticky: a PUSH found the buffer full (R31). -/
  ovr : Bool
  /-- Sticky: a command with a reserved opcode arrived (R32). -/
  ill : Bool
  deriving DecidableEq, Repr

/-- What reaches FPCV from outside (R7): a command word on the command port, or the reset event (R190). -/
inductive HostEvent where
  /-- A 16-bit command word (R70). -/
  | command (w : Word)
  /-- The reset event, between two commands (R190). -/
  | reset
  deriving DecidableEq, Repr

/-- What one DECODE commits (R111, R119): the arguments of the procedure `commit`. -/
structure DecodeResult where
  code  : Code
  field : Vector Word 14
  got   : Word
  flen  : Word
  csum  : Word
  ckrx  : Word
  deriving DecidableEq, Repr

/-- The whole state: the tuple of R20, and the model's two interface fields `port` and `rsp`. -/
structure State where
  /-- FBUF[0..31] (R22). -/
  fbuf : Memory
  /-- FCNT, the fill count (R23). A value above 32 is in no reachable state (R37; DEDUCED, safe, log entry 7). -/
  fcnt : BitVec 6
  /-- FIELD[0..13], the Measurement (R24). -/
  field : Vector Word 14
  /-- FLEN, the decoded frame length (R25). -/
  flen : Word
  /-- CSUM, the computed checksum (R26). -/
  csum : Word
  /-- CKRX, the received checksum (R27). -/
  ckrx : Word
  /-- GOT, the two start bytes (R28). -/
  got : Word
  /-- STATUS (R29). -/
  status : Status
  /-- DESIGN CHOICE, safe, log entry 3: the response word that the last event drove (R71); none after a reset (R190). -/
  rsp : Option Word
  /-- DESIGN CHOICE, safe, log entry 1: the events still to come on the command port, oldest first (R7, R61). -/
  port : List HostEvent
  deriving DecidableEq, Repr

/-- FPCV raises no fault: every error is a value (R170), nothing traps (R178) and nothing hangs (R196); DEDUCED,
unsafe only of an implementation that could stop, log entry 15. -/
inductive Fault where
  deriving DecidableEq, Repr

/-- The reasons for which the model gives an instruction no meaning. -/
inductive Refusal where
  /-- Raised by an arm of `exec` for an instruction that is not modelled yet; safe. No arm raises it: all six commands have
  their meaning. -/
  | notModelled (mnemonic : String)
  deriving DecidableEq, Repr

/-- The state after reset (R34, R190): every register 0, CODE = NONE. No response has been driven and no event waits. -/
def State.reset : State where
  fbuf := []
  fcnt := 0
  field := Vector.replicate 14 0
  flen := 0
  csum := 0
  ckrx := 0
  got := 0
  status := { code := .none, ovr := false, ill := false }
  rsp := Option.none
  port := []

end Sys2Proof.Machine
end

