-- ==== Sys2Proof/Machine/Flags.lean ====
section
/-! DEFINITION. STATUS: its 16-bit layout and every way its fields change (10_state.md R29 to R32). -/

namespace Sys2Proof.Machine

/-- The 3-bit value of each CODE (R30). -/
def codeBits : Code → BitVec 3
  | .none => 0
  | .ok => 1
  | .invalidStart => 2
  | .lenOutOfRange => 3
  | .bufferTooShort => 4
  | .checksumMismatch => 5

/-- STATUS as the 16-bit word `zext_16(ILL << 4 | OVR << 3 | CODE)` (R29, R121). -/
def statusWord (st : Status) : Word :=
  ((BitVec.ofBool st.ill).zeroExtend 16 <<< 4) ||| ((BitVec.ofBool st.ovr).zeroExtend 16 <<< 3)
    ||| (codeBits st.code).zeroExtend 16

/-- `STATUS.OVR <- 1` (R31). -/
def raiseOverrun (s : State) : State := { s with status := { s.status with ovr := true } }

/-- `STATUS.ILL <- 1` (R32). -/
def raiseIllegal (s : State) : State := { s with status := { s.status with ill := true } }

/-- `STATUS.OVR <- 0; STATUS.ILL <- 0` (R91). CODE is kept. -/
def clearSticky (s : State) : State := { s with status := { s.status with ovr := false, ill := false } }

/-- `STATUS.CODE <- c` (R30). OVR and ILL are kept. -/
def setCode (c : Code) (s : State) : State := { s with status := { s.status with code := c } }

end Sys2Proof.Machine
end

