-- ==== Sys2Proof/Machine/Ops.lean ====
section
/-! DEFINITION. The named operations on memory, registers and the command port that the meanings share.
FPCV has no exception to take and none to return from (60_exceptions.md R178, R185): an error is a value, and the one shared
operation that reports a DECODE error is `commit` (R9, R111). -/

namespace Sys2Proof.Machine

/-- `MemRead(addr, 1)` of R9: an unlisted cell reads 0x00, FBUF's reset value (R22, R34). -/
def memRead : Memory → Nat → Byte
  | [], _ => 0
  | (b, v) :: m, a => if b = a then v else memRead m a

/-- A memory without its cell at `a`, which then reads 0x00. -/
def eraseCell (m : Memory) (a : Nat) : Memory := m.filter fun c => c.1 != a

/-- A memory with the cell `(a, v)` put before the first cell of a higher address. -/
def insertCell (a : Nat) (v : Byte) : Memory → Memory
  | [] => [(a, v)]
  | (b, u) :: m => if a < b then (a, v) :: (b, u) :: m else (b, u) :: insertCell a v m

/-- `MemWrite(addr, 1, v)` of R9. Writing 0x00 leaves the cell unlisted, so that equal memories are equal lists. -/
def memWrite (m : Memory) (a : Nat) (v : Byte) : Memory :=
  if v = 0 then eraseCell m a else insertCell a v (eraseCell m a)

/-- `combine(high, low) = (high << 8) | low`, the big-endian byte-pair join (R51, R110). -/
def combine (high low : Byte) : Word := (high.zeroExtend 16 <<< 8) ||| low.zeroExtend 16

/-- The big-endian 16-bit value at a byte offset of the frame (R51). -/
def pairAt (m : Memory) (off : Nat) : Word := combine (memRead m off) (memRead m (off + 1))

/-- `rsp <- w` (R9, R71). -/
def respond (w : Word) (s : State) : State := { s with rsp := some w }

/-- The storing half of PUSH: `FBUF[FCNT] <- b; FCNT <- FCNT + 1` (R92). -/
def appendByte (b : Byte) (s : State) : State :=
  { s with fbuf := memWrite s.fbuf s.fcnt.toNat b, fcnt := s.fcnt + 1 }

/-- `for i in 0..31: FBUF[i] <- 0x00; FCNT <- 0` (R91): no cell stays listed. -/
def emptyBuffer (s : State) : State := { s with fbuf := [], fcnt := 0 }

/-- The procedure `commit` of R111 but for its response: the result registers and CODE are written together, OVR and ILL kept. -/
def commit (r : DecodeResult) (s : State) : State :=
  setCode r.code { s with field := r.field, got := r.got, flen := r.flen, csum := r.csum, ckrx := r.ckrx }

/-- The reset event (R190): every register at its reset value and no response word; the events still to come stay
(DEDUCED, safe, log entry 4). -/
def applyReset (s : State) : State := { State.reset with port := s.port }

/-- The next event on the command port, and the state with it taken off (R61); none when the host has issued nothing. -/
def takeEvent (s : State) : Option (HostEvent × State) :=
  match s.port with
  | [] => none
  | e :: rest => some (e, { s with port := rest })

/-- The state in which the command word `w` is the next event on the port. -/
def placeCommand (w : Word) (s : State) : State := { s with port := .command w :: s.port }

end Sys2Proof.Machine
end

