-- ==== Sys2Proof/Machine/Operands.lean ====
section
/-! DEFINITION. The operand forms: the fixed places of a frame that DECODE reads (30_encoding.md R77, R78), and the register
read space that READ addresses (20_memory.md R57). PUSH's operand is its ARG byte, used as it stands (R73). -/

namespace Sys2Proof.Machine

/-- The two start bytes, `combine(FBUF[0], FBUF[1])` (R28, R113). -/
def startPair (m : Memory) : Word := pairAt m 0

/-- The start-sequence test of R113: both bytes must match. -/
def startMatches (m : Memory) : Bool := memRead m 0 == Config.start1 && memRead m 1 == Config.start2

/-- The frame length, `combine(FBUF[2], FBUF[3])` (R114). -/
def frameLength (m : Memory) : Word := pairAt m 2

/-- The pair of field `k`, bytes 4 + 2k and 5 + 2k (R78). -/
def fieldPair (m : Memory) (k : Nat) : Word := pairAt m (Config.fieldBase + 2 * k)

/-- The received checksum, bytes 30 and 31 whatever the frame length is (R117). -/
def receivedChecksum (m : Memory) : Word := pairAt m Config.cksumOff

/-- The register read space (R57, R150): what READ returns for the address `a`; a reserved address reads 0x0000 (R151). -/
def readRegister (a : Byte) (s : State) : Word :=
  if h : a.toNat < 14 then s.field[a.toNat]
  else if a = 0x10 then statusWord s.status
  else if a = 0x11 then s.flen
  else if a = 0x12 then s.csum
  else if a = 0x13 then s.ckrx
  else if a = 0x14 then s.got
  else if a = 0x15 then s.fcnt.zeroExtend 16
  else if 0x20 ≤ a ∧ a ≤ 0x3F then (memRead s.fbuf (a.toNat - 0x20)).zeroExtend 16
  else 0x0000

end Sys2Proof.Machine
end

