-- ==== Sys2Proof/Machine/Buffer.lean ====
section
/-! DEFINITION. The buffer commands NOP, CLEAR and PUSH (40_buffer.md). -/

namespace Sys2Proof.Machine

/-- NOP (R90): no effect; rsp 0x0000. ARG is ignored (R75). -/
def execNop (_arg : Byte) (s : State) : Host.Outcome State Fault Refusal :=
  .next (respond 0x0000 s)

/-- CLEAR (R91): empty the frame buffer and clear the sticky flags; the last result stays readable. ARG is ignored (R75). -/
def execClear (_arg : Byte) (s : State) : Host.Outcome State Fault Refusal :=
  .next (respond 0x0000 (clearSticky (emptyBuffer s)))

/-- PUSH b (R92): append `b` while the buffer has room, else drop it and set OVR. -/
def execPush (b : Byte) (s : State) : Host.Outcome State Fault Refusal :=
  if s.fcnt.toNat < Config.frameBytes then .next (respond 0x0000 (appendByte b s))
  else .next (respond 0x0000 (raiseOverrun s))

end Sys2Proof.Machine
end

