-- ==== Sys2Proof/Machine/DecodeFrame.lean ====
section
/-! DEFINITION. DECODE: the frame decode of 41_decode.md, step by step, as a function of FBUF and FCNT (R120), and the command
that commits its result (R111). -/

namespace Sys2Proof.Machine

/-- Z of R111: 14 zero fields. -/
def zeroFields : Vector Word 14 := Vector.replicate 14 0

/-- Step 3 (R115): the pairs that fit within `flen` bytes from offset 4; the other fields are 0. -/
def extractFields (m : Memory) (flen : Nat) : Vector Word 14 :=
  Vector.ofFn fun k => if k.val < flen / 2 then fieldPair m k.val else 0

/-- `for i in 0 .. n - 1: acc <- acc + zext_16(FBUF[i])`, from acc = 0, in the 16-bit accumulator of R111, which
never wraps where DECODE uses it (R122; DEDUCED, safe, log entry 14). -/
def accumulate (m : Memory) : Nat → Word
  | 0 => 0
  | n + 1 => accumulate m n + (memRead m n).zeroExtend 16

/-- Step 4 (R116): the sum over the half-open range [0, flen + 2). -/
def computedChecksum (m : Memory) (flen : Nat) : Word := accumulate m (flen + 2)

/-- The outcome `c` with no Measurement (R119): `commit(c, Z, g, l, s, r)` of R111. -/
def failure (c : Code) (got flen csum ckrx : Word) : DecodeResult :=
  { code := c, field := zeroFields, got, flen, csum, ckrx }

/-- The outcome OK (R118): the extracted fields and everything the decode computed. -/
def success (m : Memory) : DecodeResult where
  code := .ok
  field := extractFields m (frameLength m).toNat
  got := startPair m
  flen := frameLength m
  csum := computedChecksum m (frameLength m).toNat
  ckrx := receivedChecksum m

/-- Steps 4 to 6 (R116 to R118), once the start bytes and the length have passed. -/
def decodePayload (m : Memory) : DecodeResult :=
  if computedChecksum m (frameLength m).toNat ≠ receivedChecksum m then
    failure .checksumMismatch (startPair m) (frameLength m) (computedChecksum m (frameLength m).toNat) (receivedChecksum m)
  else
    success m

/-- The whole decode (R111): the tests in the order step 0, 1, 2, 5, the first that applies reported (R176). -/
def decodeFrame (m : Memory) (fcnt : BitVec 6) : DecodeResult :=
  if fcnt.toNat < Config.frameBytes then failure .bufferTooShort 0 0 0 0
  else if startMatches m = false then failure .invalidStart (startPair m) 0 0 0
  else if Config.maxFlen < (frameLength m).toNat then failure .lenOutOfRange (startPair m) (frameLength m) 0 0
  else decodePayload m

/-- The response of R121: STATUS as it stands after the write. -/
def respondStatus (s : State) : State := respond (statusWord s.status) s

/-- DECODE (R111): commit the decode of the buffered frame and return STATUS. ARG is ignored (R75). -/
def execDecode (_arg : Byte) (s : State) : Host.Outcome State Fault Refusal :=
  .next (respondStatus (commit (decodeFrame s.fbuf s.fcnt) s))

end Sys2Proof.Machine
end

