-- ==== Sys2Proof/Machine/Read.lean ====
section
/-! DEFINITION. READ, the register read (42_read.md). -/

namespace Sys2Proof.Machine

/-- READ a (R150): return the register at `a`; no state is written. -/
def execRead (a : Byte) (s : State) : Host.Outcome State Fault Refusal :=
  .next (respond (readRegister a s) s)

end Sys2Proof.Machine
end

