-- ==== Sys2Proof/Machine/Reserved.lean ====
section
/-! DEFINITION. The reserved opcodes 0x05 to 0xFF (30_encoding.md R74, R76). -/

namespace Sys2Proof.Machine

/-- A reserved opcode (R74): set ILL, return 0x0000, change nothing else. It does not trap (R178). -/
def execReserved (_op _arg : Byte) (s : State) : Host.Outcome State Fault Refusal :=
  .next (respond 0x0000 (raiseIllegal s))

end Sys2Proof.Machine
end

