-- ==== Sys2Proof/Machine/Dispatch.lean ====
section
/-! DEFINITION. One arm per command (30_encoding.md R72). -/

namespace Sys2Proof.Machine

/-- What a command does to the state. -/
def exec (i : Instr) (s : State) : Host.Outcome State Fault Refusal :=
  match i with
  | .nop arg => Sys2Proof.Machine.execNop arg s
  | .clear arg => Sys2Proof.Machine.execClear arg s
  | .push b => Sys2Proof.Machine.execPush b s
  | .decode arg => Sys2Proof.Machine.execDecode arg s
  | .read a => Sys2Proof.Machine.execRead a s
  | .reserved op arg => Sys2Proof.Machine.execReserved op arg s

end Sys2Proof.Machine
end

