-- ==== Sys2Proof/Machine/Step.lean ====
section
/-! DEFINITION. One step: the next event on the command port takes its whole effect (00_scope.md R7, 20_memory.md R61). -/

namespace Sys2Proof.Machine

/-- One step. A command is decoded and executed (R72); a reset puts the state to its reset values (R190). With no event
waiting FPCV stands still, since it takes no step of its own (R7; DESIGN CHOICE, safe, log entry 2). -/
def step (s : State) : Host.Outcome State Fault Refusal :=
  match takeEvent s with
  | none => .next s
  | some (.command w, t) => exec (decodeCommand w) t
  | some (.reset, t) => .next (applyReset t)

/-- `s` with the command word of the table's bits `w` as the next event on the command port (DESIGN CHOICE, safe, log
entry 1). -/
def State.withFetchWord (s : State) (nbits w : Nat) : State :=
  match tableWord nbits w with
  | some c => placeCommand c s
  | none => s

end Sys2Proof.Machine
end

