-- ==== Sys2Proof/Machine/Assembler.lean ====
section
/-! DEFINITION. The assembler of 30_encoding.md R79 and the pseudo-instructions of R80. No meaning depends on this file. -/

namespace Sys2Proof.Machine

/-- The short names of the 14 fields (00_scope.md R12). -/
inductive FieldName where
  | pm1Std | pm25Std | pm10Std | pm1Atm | pm25Atm | pm10Atm
  | cnt03 | cnt05 | cnt10 | cnt25 | cnt50 | cnt100 | reserved | checksum
  deriving DecidableEq, Repr

/-- A symbolic register name that may stand for a READ address (R79). -/
inductive RegName where
  /-- FIELD0 to FIELD13. -/
  | field (k : Fin 14)
  /-- A field by its R12 name. -/
  | named (n : FieldName)
  | status | flen | csum | ckrx | got | fcnt
  /-- FBUF0 to FBUF31. -/
  | fbuf (i : Fin 32)
  deriving DecidableEq, Repr

/-- READ's operand: a number or a register name (R79). -/
inductive AsmOperand where
  | number (n : Nat)
  | register (r : RegName)
  deriving DecidableEq, Repr

/-- One assembler line: a command (R79) or a pseudo-instruction (R80). Reserved opcodes have no mnemonic. -/
inductive AsmLine where
  | nop
  | clear
  | push (b : Nat)
  | decode
  | read (a : AsmOperand)
  | loadFrame (bs : List Nat)
  | checkFrame (bs : List Nat)
  deriving DecidableEq, Repr

/-- The index k of a field name (R12). -/
def fieldIndex : FieldName → Fin 14
  | .pm1Std => 0
  | .pm25Std => 1
  | .pm10Std => 2
  | .pm1Atm => 3
  | .pm25Atm => 4
  | .pm10Atm => 5
  | .cnt03 => 6
  | .cnt05 => 7
  | .cnt10 => 8
  | .cnt25 => 9
  | .cnt50 => 10
  | .cnt100 => 11
  | .reserved => 12
  | .checksum => 13

/-- The READ address of a register name (R57, R79). -/
def registerAddress : RegName → Byte
  | .field k => BitVec.ofNat 8 k.val
  | .named n => BitVec.ofNat 8 (fieldIndex n).val
  | .status => 0x10
  | .flen => 0x11
  | .csum => 0x12
  | .ckrx => 0x13
  | .got => 0x14
  | .fcnt => 0x15
  | .fbuf i => BitVec.ofNat 8 (0x20 + i.val)

/-- "An operand outside 0..255 is an assembly error" (R79). -/
def byteOperand (n : Nat) : Option Byte := if n < 256 then some (BitVec.ofNat 8 n) else none

/-- `byteOperand` of each number of a list. -/
def byteOperands : List Nat → Option (List Byte)
  | [] => some []
  | n :: ns =>
    match byteOperand n, byteOperands ns with
    | some b, some bs => some (b :: bs)
    | _, _ => none

/-- LOADFRAME's expansion (R80): CLEAR, then one PUSH per byte, in order (R93). -/
def loadFrameCommands (bs : List Byte) : List Instr := .clear 0 :: bs.map .push

/-- CHECKFRAME's expansion (R80): LOADFRAME, then DECODE. -/
def checkFrameCommands (bs : List Byte) : List Instr := loadFrameCommands bs ++ [.decode 0]

/-- The 32 operands of a pseudo-instruction; any other number of operands is an error (R80). -/
def frameOperands (ns : List Nat) : Option (List Byte) := if ns.length = 32 then byteOperands ns else none

/-- The commands of one line; none is an assembly error. The ignored ARG is always 0x00 (R75). -/
def lineCommands : AsmLine → Option (List Instr)
  | .nop => some [.nop 0]
  | .clear => some [.clear 0]
  | .push b => (byteOperand b).map fun x => [.push x]
  | .decode => some [.decode 0]
  | .read (.number n) => (byteOperand n).map fun x => [.read x]
  | .read (.register r) => some [.read (registerAddress r)]
  | .loadFrame ns => (frameOperands ns).map loadFrameCommands
  | .checkFrame ns => (frameOperands ns).map checkFrameCommands

/-- The command words of one line (R79, R80). -/
def assembleLine (l : AsmLine) : Option (List Word) := (lineCommands l).map fun is => is.map encodeCommand

/-- The command words of a program, line after line. -/
def assemble : List AsmLine → Option (List Word)
  | [] => some []
  | l :: ls =>
    match assembleLine l, assemble ls with
    | some ws, some rest => some (ws ++ rest)
    | _, _ => none

/-! The text form. R79 fixes the mnemonics, the operand bases, the comment character and the register names; what it leaves
open is DESIGN CHOICE, unsafe for a claim about a text read otherwise, log entry 11: separators, stray commas, leading zeros,
letter case, line ends, a line continued after a comma as in program P1, and that one wrong line makes the whole text wrong.
Each is marked again where it is settled below. -/

/-- The value of a digit character in a base up to 16; a hexadecimal digit in either letter case (DESIGN CHOICE, log entry 11). -/
def digitValue (base : Nat) (c : Char) : Option Nat :=
  let v := if '0'.toNat ≤ c.toNat ∧ c.toNat ≤ '9'.toNat then c.toNat - '0'.toNat
    else if 'A'.toNat ≤ c.toNat ∧ c.toNat ≤ 'F'.toNat then c.toNat - 'A'.toNat + 10
    else if 'a'.toNat ≤ c.toNat ∧ c.toNat ≤ 'f'.toNat then c.toNat - 'a'.toNat + 10
    else 16
  if v < base then some v else none

/-- The number that digits denote, after the value of the digits before them. Any number of leading zeros is read and adds
nothing, which R79 leaves open (DESIGN CHOICE, log entry 11). -/
def digitsValue (base : Nat) : List Char → Nat → Option Nat
  | [], acc => some acc
  | c :: cs, acc => (digitValue base c).bind fun v => digitsValue base cs (acc * base + v)

/-- A number "in hexadecimal as `0x..` or in decimal" (R79). Leading zeros are read in both bases, so `PUSH 007` is PUSH 7, and
the `x` is small (DESIGN CHOICE, log entry 11). -/
def parseNumber : List Char → Option Nat
  | [] => none
  | '0' :: 'x' :: c :: cs => digitsValue 16 (c :: cs) 0
  | c :: cs => digitsValue 10 (c :: cs) 0

/-- The register names of R79 without a number, and the field names of R12. -/
def plainNames : List (String × RegName) :=
  [ ("STATUS", .status), ("FLEN", .flen), ("CSUM", .csum), ("CKRX", .ckrx), ("GOT", .got), ("FCNT", .fcnt),
    ("PM1_0_STD", .named .pm1Std), ("PM2_5_STD", .named .pm25Std), ("PM10_STD", .named .pm10Std),
    ("PM1_0_ATM", .named .pm1Atm), ("PM2_5_ATM", .named .pm25Atm), ("PM10_ATM", .named .pm10Atm),
    ("CNT_0_3", .named .cnt03), ("CNT_0_5", .named .cnt05), ("CNT_1_0", .named .cnt10), ("CNT_2_5", .named .cnt25),
    ("CNT_5_0", .named .cnt50), ("CNT_10", .named .cnt100), ("RESERVED", .named .reserved), ("CHECKSUM", .named .checksum) ]

/-- The name that a list of characters spells in a list of names. -/
def lookupName (cs : List Char) : List (String × RegName) → Option RegName
  | [] => none
  | (n, r) :: rest => if n.toList = cs then some r else lookupName cs rest

/-- A register name of R79, FIELD and FBUF with their decimal index. R79 names FIELD0 to FIELD13 and FBUF0 to FBUF31; an index
with leading zeros, as in FIELD007 or FBUF031, is read as the same index (DESIGN CHOICE, log entry 11). -/
def parseRegister : List Char → Option RegName
  | 'F' :: 'I' :: 'E' :: 'L' :: 'D' :: c :: cs =>
    (digitsValue 10 (c :: cs) 0).bind fun n => if h : n < 14 then some (.field ⟨n, h⟩) else none
  | 'F' :: 'B' :: 'U' :: 'F' :: c :: cs =>
    (digitsValue 10 (c :: cs) 0).bind fun n => if h : n < 32 then some (.fbuf ⟨n, h⟩) else none
  | cs => lookupName cs plainNames

/-- READ's operand (R79). -/
def parseOperand (cs : List Char) : Option AsmOperand :=
  match parseNumber cs with
  | some n => some (.number n)
  | none => (parseRegister cs).map .register

/-- Each token as a number. -/
def parseNumbers : List (List Char) → Option (List Nat)
  | [] => some []
  | t :: ts =>
    match parseNumber t, parseNumbers ts with
    | some n, some ns => some (n :: ns)
    | _, _ => none

/-- The tokens of a line, split at blanks, tabs and commas; `cur` is the token being read, last character first. A separator
with no token before it gives none, so a comma after the mnemonic, as in `PUSH,0x42`, and an empty operand, as in
`LOADFRAME 1,,2`, are dropped silently (DESIGN CHOICE, log entry 11). -/
def tokens : List Char → List Char → List (List Char)
  | [], cur => if cur = [] then [] else [cur.reverse]
  | c :: cs, cur =>
    if c = ' ' ∨ c = '\t' ∨ c = ',' then (if cur = [] then tokens cs [] else cur.reverse :: tokens cs [])
    else tokens cs (c :: cur)

/-- A line's tokens as a command: a mnemonic, in the capitals of R79 (DESIGN CHOICE, log entry 11), and its operands (R79,
R80). -/
def parseTokens : List (List Char) → Option AsmLine
  | [] => none
  | m :: ops =>
    if m = "NOP".toList then (if ops = [] then some .nop else none)
    else if m = "CLEAR".toList then (if ops = [] then some .clear else none)
    else if m = "DECODE".toList then (if ops = [] then some .decode else none)
    else if m = "PUSH".toList then
      match ops with
      | [b] => (parseNumber b).map .push
      | _ => none
    else if m = "READ".toList then
      match ops with
      | [a] => (parseOperand a).map .read
      | _ => none
    else if m = "LOADFRAME".toList then (parseNumbers ops).map .loadFrame
    else if m = "CHECKFRAME".toList then (parseNumbers ops).map .checkFrame
    else none

/-- The text's lines with their comments dropped ("Comments start with `;`", R79). Only the newline
character ends a line (DESIGN CHOICE, log entry 11). -/
def sourceLines : List Char → List Char → Bool → List (List Char)
  | [], cur, _ => [cur.reverse]
  | c :: cs, cur, inComment =>
    if c = '\n' then cur.reverse :: sourceLines cs [] false
    else if inComment ∨ c = ';' then sourceLines cs cur true
    else sourceLines cs (c :: cur) false

/-- Whether a line's last visible character is a comma, so that the next line continues it, as the listing of program P1 does
(DESIGN CHOICE, log entry 11). -/
def endsInComma (l : List Char) : Bool :=
  match l.reverse.dropWhile (fun c => c == ' ' || c == '\t') with
  | ',' :: _ => true
  | _ => false

/-- The lines of a text as token lists, continued lines joined to `held`; a blank line holds no command. A comma at the end of
the text, or before a blank line, continues nothing and is dropped silently (DESIGN CHOICE, log entry 11). -/
def tokenLines : List (List Char) → List (List Char) → List (List (List Char))
  | [], held => if held = [] then [] else [held]
  | l :: ls, held =>
    let all := held ++ tokens l []
    if endsInComma l then tokenLines ls all
    else if all = [] then tokenLines ls [] else all :: tokenLines ls []

/-- Every token list as a line; one that is no line makes the whole text wrong (DESIGN CHOICE, log entry 11). -/
def parseAll : List (List (List Char)) → Option (List AsmLine)
  | [] => some []
  | t :: ts =>
    match parseTokens t, parseAll ts with
    | some l, some ls => some (l :: ls)
    | _, _ => none

/-- The command words of an assembler text (R79, R80); none is an assembly error. -/
def assembleText (text : String) : Option (List Word) :=
  (parseAll (tokenLines (sourceLines text.toList [] false) [])).bind assemble

end Sys2Proof.Machine
end

