-- ==== Sys2Proof/Safety.lean ====
section
/-! DEFINITION. The terms in which claims speak of FPCV: the Measurement (10_state.md R35), the exact sum of R116, the
invariants of R37, and the source's `decode(buffer)` stated on its own, without any of the machine's operations. -/

namespace Sys2Proof

open Sys2Proof.Machine

/-- The Measurement that a reader may observe: FIELD, only while CODE = OK (R35). -/
def measurement (s : State) : Option (Vector Word 14) := if s.status.code = .ok then some s.field else none

/-- The exact sum of the bytes at offsets [0, n) (R116: "exact integer addition"). -/
def exactSum (m : Memory) (n : Nat) : Nat := ((List.range n).map fun i => (memRead m i).toNat).sum

/-- The invariants of R37, its nine items in order, and the canonical form of FBUF (the model's own, log entry 5). -/
structure Inv (s : State) : Prop where
  fcntRange : s.fcnt.toNat ≤ 32
  codeLegal : (statusWord s.status).toNat % 8 ≤ 5
  noFieldUnlessOk : s.status.code ≠ .ok → ∀ k : Fin 14, s.field[k] = 0
  whenOk : s.status.code = .ok → s.csum = s.ckrx ∧ s.csum.toNat ≤ 6801 ∧ s.flen.toNat ≤ 28 ∧ s.got = 0x424D ∧
    ∀ k : Fin 14, s.flen.toNat / 2 ≤ k.val → s.field[k] = 0
  whenInvalidStart : s.status.code = .invalidStart → s.got ≠ 0x424D ∧ s.flen = 0 ∧ s.csum = 0 ∧ s.ckrx = 0
  whenNothingDecoded : s.status.code = .none ∨ s.status.code = .bufferTooShort →
    s.got = 0 ∧ s.flen = 0 ∧ s.csum = 0 ∧ s.ckrx = 0
  whenLenOutOfRange : s.status.code = .lenOutOfRange → 28 < s.flen.toNat ∧ s.got = 0x424D ∧ s.csum = 0 ∧ s.ckrx = 0
  whenMismatch : s.status.code = .checksumMismatch → s.csum ≠ s.ckrx ∧ s.flen.toNat ≤ 28 ∧ s.got = 0x424D
  statusReservedZero : (statusWord s.status).toNat / 32 = 0
  fbufCanonical : s.fbuf.wf = true
  fbufInFrame : s.fbuf.inFrame = true

/-- The source's decode errors with what they carry (R170 to R174). BufferTooShort cannot arise from 32 bytes. -/
inductive DecodeError where
  /-- InvalidStartSequence, with the two offending bytes (R171). -/
  | invalidStartSequence (got0 got1 : Byte)
  /-- FrameLengthOutOfRange, with the declared length (R172). -/
  | frameLengthOutOfRange (flen : Nat)
  /-- ChecksumMismatch, with the computed sum and the received field (R174). -/
  | checksumMismatch (flen computed received : Nat)
  deriving DecidableEq, Repr

/-- `combine` as integer arithmetic, 256*high + low (R110). -/
def joinNat (bs : List Byte) (off : Nat) : Nat := 256 * (bs.getD off 0).toNat + (bs.getD (off + 1) 0).toNat

/-- The source's `decode(buffer: 32 bytes) -> Measurement | DecodeError` over a list of bytes and exact integers
(R113 to R118), in the source's step order. -/
def sourceDecode (bs : List Byte) : Except DecodeError (List Nat) :=
  if bs.getD 0 0 ≠ 0x42 ∨ bs.getD 1 0 ≠ 0x4D then .error (.invalidStartSequence (bs.getD 0 0) (bs.getD 1 0))
  else if 28 < joinNat bs 2 then .error (.frameLengthOutOfRange (joinNat bs 2))
  else if ((bs.take (joinNat bs 2 + 2)).map BitVec.toNat).sum ≠ joinNat bs 30 then
    .error (.checksumMismatch (joinNat bs 2) ((bs.take (joinNat bs 2 + 2)).map BitVec.toNat).sum (joinNat bs 30))
  else .ok ((List.range 14).map fun k => if k < joinNat bs 2 / 2 then joinNat bs (4 + 2 * k) else 0)

/-- What a state reports as the result of the last DECODE of a whole frame: the Measurement under CODE = OK, else the error
with the diagnostics that R171, R172 and R174 name. -/
def reportedResult (s : State) : Option (Except DecodeError (List Nat)) :=
  match s.status.code with
  | .ok => some (.ok (s.field.toList.map BitVec.toNat))
  | .invalidStart => some (.error (.invalidStartSequence (s.got.extractLsb' 8 8) (s.got.extractLsb' 0 8)))
  | .lenOutOfRange => some (.error (.frameLengthOutOfRange s.flen.toNat))
  | .checksumMismatch => some (.error (.checksumMismatch s.flen.toNat s.csum.toNat s.ckrx.toNat))
  | .none => none
  | .bufferTooShort => none

/-- Every byte of the frame-byte space reads as before. -/
def sameBytes (s t : State) : Prop := ∀ a, memRead t.fbuf a = memRead s.fbuf a

/-- The result registers and CODE are as before: the registers that only DECODE and reset write (R24 to R28, R30). -/
def sameResults (s t : State) : Prop :=
  t.field = s.field ∧ t.flen = s.flen ∧ t.csum = s.csum ∧ t.ckrx = s.ckrx ∧ t.got = s.got ∧ t.status.code = s.status.code

/-- FBUF, FCNT, OVR, ILL and the events still to come are as before: what DECODE never writes (R120). -/
def sameInputs (s t : State) : Prop :=
  sameBytes s t ∧ t.fcnt = s.fcnt ∧ t.status.ovr = s.status.ovr ∧ t.status.ill = s.status.ill ∧ t.port = s.port

/-- The five result registers of a DECODE without a Measurement: FIELD all zero and the diagnostics given (R119). -/
def holdsFailure (t : State) (c : Code) (got flen csum ckrx : Nat) : Prop :=
  t.status.code = c ∧ (∀ k : Fin 14, t.field[k] = 0) ∧ t.got.toNat = got ∧ t.flen.toNat = flen ∧ t.csum.toNat = csum ∧
    t.ckrx.toNat = ckrx

/-- The 16-bit big-endian value at an offset of the frame, as integer arithmetic (R51, R110). -/
def pairNat (m : Memory) (off : Nat) : Nat := 256 * (memRead m off).toNat + (memRead m (off + 1)).toNat

/-- The values of R34: every register at its reset value. -/
def registersReset (s : State) : Prop :=
  (∀ a, memRead s.fbuf a = 0) ∧ s.fcnt = 0 ∧ (∀ k : Fin 14, s.field[k] = 0) ∧ s.flen = 0 ∧ s.csum = 0 ∧ s.ckrx = 0 ∧
    s.got = 0 ∧ s.status.code = .none ∧ s.status.ovr = false ∧ s.status.ill = false

/-- The numbers of R30. -/
def codeNumber : Code → Nat
  | .none => 0
  | .ok => 1
  | .invalidStart => 2
  | .lenOutOfRange => 3
  | .bufferTooShort => 4
  | .checksumMismatch => 5

/-- STATUS as a number: CODE in bits [2:0], OVR in bit 3, ILL in bit 4, the rest 0 (R29, R121). -/
def statusNumber (st : Status) : Nat := codeNumber st.code + 8 * st.ovr.toNat + 16 * st.ill.toNat

/-- `k` steps of the machine, stopping at the first stop. -/
def run (k : Nat) (s : State) : Host.Outcome State Fault Refusal := core.run k s

/-- Commands as the events that put their words on the command port. -/
def commandEvents (is : List Instr) : List HostEvent := is.map fun i => .command (encodeCommand i)

end Sys2Proof
end

