-- ==== Sys2Proof/Certificates/Slice0/Obligations.lean ====
section
/-! DEFINITION. The statements about FPCV for the provers, from the numbered rules of spec/. -/

open Sys2Proof Sys2Proof.Machine

/-! ## Encoding -/

/-- R70, R72, R73: a well-formed command is read back from its word, with every operand byte. -/
def Obligations.DecodeOfEncodeIsIdentity : Prop :=
  ∀ i : Instr, i.wellFormed = true → decodeCommand (encodeCommand i) = i

/-- R72: "The decode is total." Every word selects a well-formed command, and that command's word is the word itself, so no
bit is dropped and no two words share a command. -/
def Obligations.EncodeOfDecodeIsIdentity : Prop :=
  ∀ w : Word, (decodeCommand w).wellFormed = true ∧ encodeCommand (decodeCommand w) = w

/-- R72: the opcode map, with OP and ARG as the two halves of the word's number. -/
def Obligations.OpcodeMapSelectsCommand : Prop :=
  ∀ w : Word, (argByte (decodeCommand w)).toNat = w.toNat % 256 ∧
    mnemonicOf (decodeCommand w) =
      (if w.toNat / 256 = 0 then .nop
       else if w.toNat / 256 = 1 then .clear
       else if w.toNat / 256 = 2 then .push
       else if w.toNat / 256 = 3 then .decode
       else if w.toNat / 256 = 4 then .read
       else .reserved)

/-- R81: "A decoder written from the table matches the decoder of rule R72 on all 65536 words". -/
def Obligations.TableFirstMatchAgreesWithDecoder : Prop :=
  ∀ w : Word, firstMatch w opcodeTable = some (mnemonicOf (decodeCommand w))

/-- R72, R79: words written out from the spec decode to the commands they stand for (a sanity statement). -/
def Obligations.WordsOfTheSpecDecode : Prop :=
  decodeCommand 0x0000 = .nop 0x00 ∧ decodeCommand 0x00AB = .nop 0xAB ∧ decodeCommand 0x0100 = .clear 0x00 ∧
  decodeCommand 0x0242 = .push 0x42 ∧ decodeCommand 0x02FF = .push 0xFF ∧ decodeCommand 0x0300 = .decode 0x00 ∧
  decodeCommand 0x0412 = .read 0x12 ∧ decodeCommand 0x040D = .read 0x0D ∧ decodeCommand 0x0500 = .reserved 0x05 0x00 ∧
  decodeCommand 0xE200 = .reserved 0xE2 0x00 ∧ decodeCommand 0xFFFF = .reserved 0xFF 0xFF

/-- R79: the assembler's encodings, the READ address of each kind of register name (R57), and that "an operand outside 0..255
is an assembly error". -/
def Obligations.AssemblerEncodesEachMnemonic : Prop :=
  assembleLine .nop = some [0x0000] ∧ assembleLine .clear = some [0x0100] ∧ assembleLine .decode = some [0x0300] ∧
  (∀ b, assembleLine (.push b) = if b < 256 then some [0x0200 ||| BitVec.ofNat 16 b] else none) ∧
  (∀ a, assembleLine (.read (.number a)) = if a < 256 then some [0x0400 ||| BitVec.ofNat 16 a] else none) ∧
  (∀ k : Fin 14, assembleLine (.read (.register (.field k))) = some [BitVec.ofNat 16 (0x0400 + k.val)]) ∧
  (∀ i : Fin 32, assembleLine (.read (.register (.fbuf i))) = some [BitVec.ofNat 16 (0x0420 + i.val)]) ∧
  (∀ n, assembleLine (.read (.register (.named n))) = assembleLine (.read (.register (.field (fieldIndex n))))) ∧
  assembleLine (.read (.register .status)) = some [0x0410] ∧ assembleLine (.read (.register .flen)) = some [0x0411] ∧
  assembleLine (.read (.register .csum)) = some [0x0412] ∧ assembleLine (.read (.register .ckrx)) = some [0x0413] ∧
  assembleLine (.read (.register .got)) = some [0x0414] ∧ assembleLine (.read (.register .fcnt)) = some [0x0415]

/-- R80: LOADFRAME and CHECKFRAME of exactly 32 byte operands expand to CLEAR, one PUSH per operand and, for CHECKFRAME,
DECODE; another number of operands is an error. -/
def Obligations.PseudoInstructionsExpand : Prop :=
  ∀ ns : List Nat,
    (ns.length = 32 → (∀ n ∈ ns, n < 256) →
      assembleLine (.loadFrame ns) = some (0x0100 :: ns.map fun n => 0x0200 ||| BitVec.ofNat 16 n) ∧
      assembleLine (.checkFrame ns) = some ((0x0100 :: ns.map fun n => 0x0200 ||| BitVec.ofNat 16 n) ++ [0x0300])) ∧
    (ns.length ≠ 32 → assembleLine (.loadFrame ns) = none ∧ assembleLine (.checkFrame ns) = none)

/-! ## The step -/

/-- R61, R70, R72: a step whose next event is a command word executes the decoded command, with the word taken off the port;
so for the word of any well-formed command it executes that command. -/
def Obligations.StepExecutesTheNextCommand : Prop :=
  ∀ (s : State) (w : Word) (rest : List HostEvent), s.port = .command w :: rest →
    step s = exec (decodeCommand w) { s with port := rest } ∧
    ∀ i : Instr, i.wellFormed = true → w = encodeCommand i → step s = exec i { s with port := rest }

/-- R190: a step whose next event is the reset puts every register to its reset value and returns no response; the state at
start is that state too. -/
def Obligations.ResetEventAppliesResetValues : Prop :=
  registersReset State.reset ∧ State.reset.rsp = none ∧
  ∀ (s : State) (rest : List HostEvent), s.port = .reset :: rest →
    ∃ t, step s = .next t ∧ registersReset t ∧ t.rsp = none ∧ t.port = rest

/-- R7, and the model's choice in log entry 2: with no event waiting, FPCV stands still. -/
def Obligations.StepWithoutEventStandsStill : Prop :=
  ∀ s : State, s.port = [] → step s = .next s

/-- From R196: no step blocks, stalls or hangs, and "Every command word, including a reserved one, ends in one step with a
response." The first clause takes in the idle port, where the step that answers is the model's choice (log entry 2) and no step
of the spec (R7). -/
def Obligations.EveryCommandWordIsAnsweredInOneStep : Prop :=
  (∀ s : State, ∃ t, step s = .next t) ∧
  ∀ (s : State) (w : Word) (rest : List HostEvent), s.port = .command w :: rest →
    ∃ t r, step s = .next t ∧ t.rsp = some r ∧ t.port = rest

/-- R71: the response word of every command. -/
def Obligations.ResponseWordOfEachCommand : Prop :=
  ∀ (i : Instr) (s : State), ∃ t, exec i s = .next t ∧
    t.rsp = match i with
      | .read a => some (readRegister a s)
      | .decode _ => some (statusWord t.status)
      | .nop _ => some 0x0000
      | .clear _ => some 0x0000
      | .push _ => some 0x0000
      | .reserved _ _ => some 0x0000

/-- R20: the response word is no state that a command could read (log entry 3). -/
def Obligations.CommandsIgnoreTheLastResponse : Prop :=
  ∀ (i : Instr) (s : State) (r : Option Word), exec i { s with rsp := r } = exec i s

/-- R61: a command sees nothing of what comes after it, and leaves it to come. -/
def Obligations.CommandsIgnoreLaterEvents : Prop :=
  ∀ (i : Instr) (s : State) (p : List HostEvent), ∃ t, exec i s = .next t ∧ t.port = s.port ∧
    exec i { s with port := p } = .next { t with port := p }

/-! ## The buffer commands -/

/-- R90: every word with OP 0x00 is NOP; it leaves the state and returns 0x0000. -/
def Obligations.NopOnlyResponds : Prop :=
  (∀ w : Word, w.toNat / 256 = 0 → decodeCommand w = .nop (BitVec.ofNat 8 w.toNat)) ∧
  ∀ (arg : Byte) (s : State), exec (.nop arg) s = .next { s with rsp := some 0x0000 }

/-- R91: every word with OP 0x01 is CLEAR; it empties the buffer, clears OVR and ILL, returns 0x0000, and keeps
the result registers and CODE. -/
def Obligations.ClearEmptiesBufferAndKeepsResults : Prop :=
  (∀ w : Word, w.toNat / 256 = 1 → decodeCommand w = .clear (BitVec.ofNat 8 w.toNat)) ∧
  ∀ (arg : Byte) (s : State), ∃ t, exec (.clear arg) s = .next t ∧
    (∀ a, memRead t.fbuf a = 0) ∧ t.fcnt = 0 ∧ t.status.ovr = false ∧ t.status.ill = false ∧ t.rsp = some 0x0000 ∧
    sameResults s t ∧ t.port = s.port

/-- R92: every word with OP 0x02 is PUSH of its low byte; it stores the byte at FBUF[FCNT] and counts it while FCNT < 32; else
it sets OVR and drops the byte. Nothing else
changes, no other byte of the buffer among it. -/
def Obligations.PushAppendsOrOverruns : Prop :=
  (∀ w : Word, w.toNat / 256 = 2 → decodeCommand w = .push (BitVec.ofNat 8 w.toNat)) ∧
  ∀ (b : Byte) (s : State),
    (s.fcnt.toNat < 32 → ∃ t, exec (.push b) s = .next t ∧
      memRead t.fbuf s.fcnt.toNat = b ∧ (∀ a, a ≠ s.fcnt.toNat → memRead t.fbuf a = memRead s.fbuf a) ∧
      t.fcnt.toNat = s.fcnt.toNat + 1 ∧ t.status = s.status ∧ t.rsp = some 0x0000 ∧ sameResults s t ∧ t.port = s.port) ∧
    (32 ≤ s.fcnt.toNat → ∃ t, exec (.push b) s = .next t ∧
      sameBytes s t ∧ t.fcnt = s.fcnt ∧ t.status.ovr = true ∧ t.status.ill = s.status.ill ∧ t.rsp = some 0x0000 ∧
      sameResults s t ∧ t.port = s.port)

/-- R93: bytes pushed from FCNT = 0, at most 32 of them, stand in FBUF in their order, and FCNT counts them. -/
def Obligations.PushedBytesFillTheBufferInOrder : Prop :=
  ∀ (s : State) (bs : List Byte) (rest : List HostEvent), s.fcnt = 0 → bs.length ≤ 32 →
    s.port = commandEvents (bs.map .push) ++ rest →
    ∃ t, run bs.length s = .next t ∧ t.fcnt.toNat = bs.length ∧ (∀ i, ∀ h : i < bs.length, memRead t.fbuf i = bs[i]) ∧
      (∀ a, bs.length ≤ a → memRead t.fbuf a = memRead s.fbuf a) ∧ t.status = s.status ∧ sameResults s t ∧ t.port = rest

/-- R75: NOP, CLEAR and DECODE give the same effect and response for every ARG as for 0x00, which the assembler emits. -/
def Obligations.ArgIsIgnored : Prop :=
  (assembleLine .nop = some [0x0000] ∧ assembleLine .clear = some [0x0100] ∧ assembleLine .decode = some [0x0300]) ∧
  ∀ (arg : Byte) (s : State), exec (.nop arg) s = exec (.nop 0x00) s ∧ exec (.clear arg) s = exec (.clear 0x00) s ∧
    exec (.decode arg) s = exec (.decode 0x00) s

/-! ## DECODE -/

/-- R112, R173: with FCNT < 32 DECODE ends with BUFFER_TOO_SHORT, whatever the bytes are, and records nothing. -/
def Obligations.DecodeOfShortBuffer : Prop :=
  ∀ (arg : Byte) (s : State), s.fcnt.toNat < 32 →
    ∃ t, exec (.decode arg) s = .next t ∧ holdsFailure t .bufferTooShort 0 0 0 0 ∧ sameInputs s t

/-- R113, R171: with FCNT = 32, one differing start byte gives INVALID_START, and GOT carries the two bytes. -/
def Obligations.DecodeOfBadStartBytes : Prop :=
  ∀ (arg : Byte) (s : State), s.fcnt.toNat = 32 → (memRead s.fbuf 0 ≠ 0x42 ∨ memRead s.fbuf 1 ≠ 0x4D) →
    ∃ t, exec (.decode arg) s = .next t ∧ holdsFailure t .invalidStart (pairNat s.fbuf 0) 0 0 0 ∧
      t.got.extractLsb' 8 8 = memRead s.fbuf 0 ∧ t.got.extractLsb' 0 8 = memRead s.fbuf 1 ∧ sameInputs s t

/-- R114, R172: a frame length above 28 behind a valid marker gives LEN_OUT_OF_RANGE, with GOT and FLEN recorded. -/
def Obligations.DecodeOfBadLength : Prop :=
  ∀ (arg : Byte) (s : State), s.fcnt.toNat = 32 → memRead s.fbuf 0 = 0x42 → memRead s.fbuf 1 = 0x4D →
    28 < pairNat s.fbuf 2 →
    ∃ t, exec (.decode arg) s = .next t ∧ holdsFailure t .lenOutOfRange 0x424D (pairNat s.fbuf 2) 0 0 ∧ sameInputs s t

/-- R174, R116, R117: with the marker and the length valid, an exact sum of bytes [0, flen + 2) that differs from bytes 30 and
31 gives CHECKSUM_MISMATCH, with the sum and the received field recorded. -/
def Obligations.DecodeOfBadChecksum : Prop :=
  ∀ (arg : Byte) (s : State), s.fcnt.toNat = 32 → memRead s.fbuf 0 = 0x42 → memRead s.fbuf 1 = 0x4D →
    pairNat s.fbuf 2 ≤ 28 → exactSum s.fbuf (pairNat s.fbuf 2 + 2) ≠ pairNat s.fbuf 30 →
    ∃ t, exec (.decode arg) s = .next t ∧
      holdsFailure t .checksumMismatch 0x424D (pairNat s.fbuf 2) (exactSum s.fbuf (pairNat s.fbuf 2 + 2)) (pairNat s.fbuf 30) ∧
      sameInputs s t

/-- R115, R118: when every test passes the outcome is OK; field k is the join of bytes 4 + 2k and 5 + 2k for k < flen / 2 and 0
for the others, and the diagnostics hold their values. -/
def Obligations.DecodeOfValidFrame : Prop :=
  ∀ (arg : Byte) (s : State), s.fcnt.toNat = 32 → memRead s.fbuf 0 = 0x42 → memRead s.fbuf 1 = 0x4D →
    pairNat s.fbuf 2 ≤ 28 → exactSum s.fbuf (pairNat s.fbuf 2 + 2) = pairNat s.fbuf 30 →
    ∃ t, exec (.decode arg) s = .next t ∧ t.status.code = .ok ∧ measurement t = some t.field ∧
      (∀ k : Fin 14, t.field[k].toNat = if k.val < pairNat s.fbuf 2 / 2 then pairNat s.fbuf (4 + 2 * k.val) else 0) ∧
      t.got = 0x424D ∧ t.flen.toNat = pairNat s.fbuf 2 ∧ t.csum.toNat = exactSum s.fbuf (pairNat s.fbuf 2 + 2) ∧
      t.ckrx.toNat = pairNat s.fbuf 30 ∧ sameInputs s t

/-- R176: DECODE reports the first failure in the order of its steps. -/
def Obligations.DecodeReportsFirstFailure : Prop :=
  ∀ (arg : Byte) (s : State), ∃ t, exec (.decode arg) s = .next t ∧
    t.status.code =
      (if s.fcnt.toNat < 32 then .bufferTooShort
       else if memRead s.fbuf 0 ≠ 0x42 ∨ memRead s.fbuf 1 ≠ 0x4D then .invalidStart
       else if 28 < pairNat s.fbuf 2 then .lenOutOfRange
       else if exactSum s.fbuf (pairNat s.fbuf 2 + 2) ≠ pairNat s.fbuf 30 then .checksumMismatch
       else .ok)

/-- R119: the result registers by outcome. DECODE never gives NONE (R111). -/
def Obligations.ResultRegistersByOutcome : Prop :=
  ∀ (arg : Byte) (s : State), ∃ t, exec (.decode arg) s = .next t ∧
    match t.status.code with
    | .none => False
    | .bufferTooShort => holdsFailure t .bufferTooShort 0 0 0 0
    | .invalidStart => holdsFailure t .invalidStart (pairNat s.fbuf 0) 0 0 0
    | .lenOutOfRange => holdsFailure t .lenOutOfRange 0x424D (pairNat s.fbuf 2) 0 0
    | .checksumMismatch =>
      holdsFailure t .checksumMismatch 0x424D (pairNat s.fbuf 2) (exactSum s.fbuf (pairNat s.fbuf 2 + 2)) (pairNat s.fbuf 30)
    | .ok =>
      (∀ k : Fin 14, t.field[k].toNat = if k.val < pairNat s.fbuf 2 / 2 then pairNat s.fbuf (4 + 2 * k.val) else 0) ∧
        t.got = 0x424D ∧ t.flen.toNat = pairNat s.fbuf 2 ∧ t.csum.toNat = exactSum s.fbuf (pairNat s.fbuf 2 + 2) ∧
        t.ckrx.toNat = pairNat s.fbuf 30

/-- R122, R26: whenever the sum is computed it is the exact sum, in [143, 6801], so a received checksum outside that range
gives CHECKSUM_MISMATCH. -/
def Obligations.ComputedSumIsExactAndBounded : Prop :=
  ∀ (arg : Byte) (s : State), s.fcnt.toNat = 32 → memRead s.fbuf 0 = 0x42 → memRead s.fbuf 1 = 0x4D →
    pairNat s.fbuf 2 ≤ 28 →
    ∃ t, exec (.decode arg) s = .next t ∧ t.csum.toNat = exactSum s.fbuf (pairNat s.fbuf 2 + 2) ∧
      143 ≤ t.csum.toNat ∧ t.csum.toNat ≤ 6801 ∧
      (pairNat s.fbuf 30 < 143 ∨ 6801 < pairNat s.fbuf 30 → t.status.code = .checksumMismatch)

/-- R120: DECODE is a function of FBUF[0..31] and FCNT: two states that agree on those get the same results, whatever the
earlier results, OVR, ILL and the cells outside the frame are. -/
def Obligations.DecodeDependsOnlyOnBufferAndCount : Prop :=
  ∀ (a b : Byte) (s u : State), s.fcnt = u.fcnt → (∀ i, i < 32 → memRead s.fbuf i = memRead u.fbuf i) →
    ∃ t v, exec (.decode a) s = .next t ∧ exec (.decode b) u = .next v ∧ sameResults t v ∧ sameInputs s t ∧ sameInputs u v

/-- R121: DECODE's response is `ILL << 4 | OVR << 3 | CODE` after the decode, so 0x0001 for a valid frame with both flags 0. -/
def Obligations.DecodeRespondsWithStatus : Prop :=
  ∀ (arg : Byte) (s : State), ∃ t r, exec (.decode arg) s = .next t ∧ t.rsp = some r ∧
    r.toNat = codeNumber t.status.code + 8 * s.status.ovr.toNat + 16 * s.status.ill.toNat ∧
    (t.status.code = .ok → s.status.ovr = false → s.status.ill = false → r = 0x0001)

/-- R124: the sum cannot see two bytes of the summed payload swapped: CODE and CSUM stay the same. -/
def Obligations.SwappedBytesPassTheSum : Prop :=
  ∀ (arg : Byte) (s : State) (i j : Nat), pairNat s.fbuf 2 ≤ 28 → 4 ≤ i → i < pairNat s.fbuf 2 + 2 → 4 ≤ j →
    j < pairNat s.fbuf 2 + 2 →
    ∃ t v, exec (.decode arg) s = .next t ∧
      exec (.decode arg) { s with fbuf := memWrite (memWrite s.fbuf i (memRead s.fbuf j)) j (memRead s.fbuf i) } = .next v ∧
      v.status.code = t.status.code ∧ v.csum = t.csum

/-- R110: `combine` is exact, its halves are its operands, and it is injective. -/
def Obligations.CombineJoinsExactly : Prop :=
  (∀ h l : Byte, (combine h l).toNat = 256 * h.toNat + l.toNat ∧ (combine h l).extractLsb' 8 8 = h ∧
    (combine h l).extractLsb' 0 8 = l) ∧
  (∀ h l h' l' : Byte, combine h l = combine h' l' → h = h' ∧ l = l') ∧
  combine 0x00 0x00 = 0x0000 ∧ combine 0xFF 0xFF = 0xFFFF

/-! ## READ and the reserved opcodes -/

/-- R57, R150, R151: every word with OP 0x04 is READ of its low byte; what READ returns at each of the 256
addresses; it changes nothing but the response. -/
def Obligations.ReadReturnsTheRegisterMap : Prop :=
  (∀ w : Word, w.toNat / 256 = 4 → decodeCommand w = .read (BitVec.ofNat 8 w.toNat)) ∧
  ∀ s : State,
    (∀ k : Fin 14, exec (.read (BitVec.ofNat 8 k.val)) s = .next { s with rsp := some s.field[k] }) ∧
    (∃ r : Word, r.toNat = statusNumber s.status ∧ exec (.read 0x10) s = .next { s with rsp := some r }) ∧
    exec (.read 0x11) s = .next { s with rsp := some s.flen } ∧
    exec (.read 0x12) s = .next { s with rsp := some s.csum } ∧
    exec (.read 0x13) s = .next { s with rsp := some s.ckrx } ∧
    exec (.read 0x14) s = .next { s with rsp := some s.got } ∧
    exec (.read 0x15) s = .next { s with rsp := some (BitVec.ofNat 16 s.fcnt.toNat) } ∧
    (∀ i : Fin 32, exec (.read (BitVec.ofNat 8 (0x20 + i.val))) s =
      .next { s with rsp := some (BitVec.ofNat 16 (memRead s.fbuf i.val).toNat) }) ∧
    (∀ a : Byte, (a = 0x0E ∨ a = 0x0F ∨ (0x16 ≤ a.toNat ∧ a.toNat ≤ 0x1F) ∨ 0x40 ≤ a.toNat) →
      exec (.read a) s = .next { s with rsp := some 0x0000 })

/-- R54: right after a DECODE with outcome OK, the field that READ returns is the join of the two bytes that READ returns. -/
def Obligations.FieldViewAgreesWithByteView : Prop :=
  ∀ (arg : Byte) (s : State) (k : Fin 14), s.fcnt.toNat = 32 → memRead s.fbuf 0 = 0x42 → memRead s.fbuf 1 = 0x4D →
    pairNat s.fbuf 2 ≤ 28 → exactSum s.fbuf (pairNat s.fbuf 2 + 2) = pairNat s.fbuf 30 → k.val < pairNat s.fbuf 2 / 2 →
    ∃ t r h l, exec (.decode arg) s = .next t ∧ exec (.read (BitVec.ofNat 8 k.val)) t = .next { t with rsp := some r } ∧
      exec (.read (BitVec.ofNat 8 (0x24 + 2 * k.val))) t = .next { t with rsp := some h } ∧
      exec (.read (BitVec.ofNat 8 (0x25 + 2 * k.val))) t = .next { t with rsp := some l } ∧
      r.toNat = 256 * h.toNat + l.toNat

/-- R74: every word whose OP is 0x05 to 0xFF is a reserved command; it sets ILL, returns 0x0000 and changes nothing else. -/
def Obligations.ReservedOpcodesSetIllOnly : Prop :=
  (∀ w : Word, 5 ≤ w.toNat / 256 → ∃ op arg, decodeCommand w = .reserved op arg) ∧
  ∀ (op arg : Byte) (s : State),
    exec (.reserved op arg) s = .next { s with status := { s.status with ill := true }, rsp := some 0x0000 }

/-! ## Frames -/

/-- R90, R150: NOP and READ change no register and no byte. -/
def Obligations.FrameOfNopAndRead : Prop :=
  ∀ (x : Byte) (s : State), ∀ i ∈ [Instr.nop x, Instr.read x], ∃ t, exec i s = .next t ∧
    sameInputs s t ∧ sameResults s t

/-- R74: a reserved opcode changes ILL and the response only. -/
def Obligations.FrameOfReservedOpcodes : Prop :=
  ∀ (op arg : Byte) (s : State), ∃ t, exec (.reserved op arg) s = .next t ∧ t.status.ill = true ∧
    sameBytes s t ∧ t.fcnt = s.fcnt ∧ t.status.ovr = s.status.ovr ∧ sameResults s t ∧ t.port = s.port

/-- R92, R56: PUSH changes at most the byte at FBUF[FCNT], FCNT and OVR. -/
def Obligations.FrameOfPush : Prop :=
  ∀ (b : Byte) (s : State), ∃ t, exec (.push b) s = .next t ∧
    (∀ a, (s.fcnt.toNat < 32 → a ≠ s.fcnt.toNat) → memRead t.fbuf a = memRead s.fbuf a) ∧
    (32 ≤ s.fcnt.toNat → t.fcnt = s.fcnt) ∧ (s.fcnt.toNat < 32 → t.status.ovr = s.status.ovr) ∧
    t.status.ill = s.status.ill ∧ sameResults s t ∧ t.port = s.port

/-- R120: DECODE writes none of FBUF, FCNT, OVR and ILL. -/
def Obligations.FrameOfDecode : Prop :=
  ∀ (arg : Byte) (s : State), ∃ t, exec (.decode arg) s = .next t ∧ sameInputs s t

/-- R24, R30, R33: no command but DECODE writes FIELD, FLEN, CSUM, CKRX, GOT or CODE. -/
def Obligations.OnlyDecodeWritesResults : Prop :=
  ∀ (i : Instr) (s t : State), (∀ arg, i ≠ .decode arg) → exec i s = .next t → sameResults s t

/-- R175: a PUSH into a full buffer is the only command that sets OVR, a reserved opcode the only one that sets ILL, and CLEAR
the only one that clears either. -/
def Obligations.StickyFlagsSetAndCleared : Prop :=
  ∀ (i : Instr) (s t : State), exec i s = .next t →
    (t.status.ovr = true ↔ ((∃ b, i = .push b) ∧ 32 ≤ s.fcnt.toNat) ∨ (s.status.ovr = true ∧ ∀ arg, i ≠ .clear arg)) ∧
    (t.status.ill = true ↔ (∃ op arg, i = .reserved op arg) ∨ (s.status.ill = true ∧ ∀ arg, i ≠ .clear arg))

/-- R58: every command but PUSH, given twice, leaves the state and the response it left the first time. -/
def Obligations.CommandsButPushAreIdempotent : Prop :=
  ∀ (i : Instr) (s : State), (∀ b, i ≠ .push b) → ∃ t, exec i s = .next t ∧ exec i t = .next t

/-- R152, R195: any number of commands with no DECODE among them leaves the Measurement and the diagnostics as they were. -/
def Obligations.ResultsStandUntilTheNextDecode : Prop :=
  ∀ (s : State) (is : List Instr) (rest : List HostEvent),
    (∀ i ∈ is, i.wellFormed = true ∧ ∀ arg, i ≠ .decode arg) → s.port = commandEvents is ++ rest →
    ∃ t, run is.length s = .next t ∧ sameResults s t ∧ measurement t = measurement s ∧ t.port = rest

/-! ## Reset and invariants -/

/-- From R190 and R91, as the spec itself derives R191: CLEAR and reset differ only in that reset also clears the
result registers and CODE. -/
def Obligations.ResetAndClearDifferInResultsOnly : Prop :=
  ∀ (arg : Byte) (s : State) (rest : List HostEvent), s.port = .reset :: rest →
    ∃ t u, step s = .next t ∧ exec (.clear arg) s = .next u ∧
      sameBytes t u ∧ (∀ a, memRead t.fbuf a = 0) ∧ u.fcnt = 0 ∧ t.fcnt = 0 ∧
      u.status.ovr = false ∧ t.status.ovr = false ∧ u.status.ill = false ∧ t.status.ill = false ∧
      sameResults s u ∧ sameResults State.reset t ∧ measurement t = none

/-- R37: the invariants hold at reset. -/
def Obligations.ResetMeetsTheInvariants : Prop := Inv State.reset

/-- R37: every step, of a command, a reset or nothing, keeps the invariants from every state that meets them. -/
def Obligations.StepKeepsTheInvariants : Prop :=
  ∀ s t : State, Inv s → step s = .next t → Inv t

/-- Log entry 5: every step keeps the canonical form of FBUF, in every state, and lists no cell outside FBUF[0..31]. -/
def Obligations.StepKeepsTheBufferCanonical : Prop :=
  ∀ s t : State, s.fbuf.wf = true → s.fbuf.inFrame = true → step s = .next t → t.fbuf.wf = true ∧ t.fbuf.inFrame = true

/-- R150 (corner cases), R91: the unfilled slots of FBUF hold 0, an invariant of every step. -/
def Obligations.UnfilledSlotsStayZero : Prop :=
  ∀ s t : State, s.fcnt.toNat ≤ 32 → (∀ a, s.fcnt.toNat ≤ a → memRead s.fbuf a = 0) → step s = .next t →
    t.fcnt.toNat ≤ 32 ∧ ∀ a, t.fcnt.toNat ≤ a → memRead t.fbuf a = 0

/-! ## The whole decode -/

/-- From R80, R111, R93, R121 (the host's view of one `decode(buffer)`): from every state, CHECKFRAME of any 32 bytes ends, after its 34
commands, in a state that reports exactly what the source's decode gives for those bytes, and its last response is STATUS. -/
def Obligations.CheckFrameRefinesSourceDecode : Prop :=
  ∀ (s : State) (bs : List Byte) (rest : List HostEvent), bs.length = 32 →
    s.port = commandEvents (checkFrameCommands bs) ++ rest →
    ∃ t, run 34 s = .next t ∧ reportedResult t = some (sourceDecode bs) ∧ t.rsp = some (statusWord t.status) ∧
      t.status.ovr = false ∧ t.status.ill = false ∧ t.port = rest
end

