-- ==== Sys2Proof/Laws/Frame.lean ====
section
/-! SUPPORT. The decode arithmetic in natural numbers (41_decode.md R110, R122), that DECODE reads only FBUF[0..31], and what
`decodeFrame` can answer, said once. -/

namespace Sys2Proof.Machine

theorem combine_toNat (high low : Byte) : (combine high low).toNat = 256 * high.toNat + low.toNat := by
  have hh := high.isLt
  have hl := low.isLt
  have hw : combine high low = high ++ low := by
    apply BitVec.eq_of_getLsbD_eq
    intro i hi
    rw [combine, BitVec.getLsbD_or, BitVec.getLsbD_shiftLeft, BitVec.getLsbD_append]
    by_cases h8 : i < 8
    · simp [hi, h8]
    · have : low.getLsbD i = false := BitVec.getLsbD_of_ge _ _ (by omega)
      have h9 : i - 8 < 16 := by omega
      simp [hi, h8, this, h9]
  rw [hw, BitVec.toNat_append, Nat.shiftLeft_eq, ← Nat.shiftLeft_eq, ← Nat.shiftLeft_add_eq_or_of_lt hl, Nat.shiftLeft_eq]
  omega

theorem pairAt_toNat (m : Memory) (off : Nat) :
    (pairAt m off).toNat = 256 * (memRead m off).toNat + (memRead m (off + 1)).toNat := combine_toNat _ _

theorem exactSum_zero (m : Memory) : exactSum m 0 = 0 := rfl

theorem exactSum_succ (m : Memory) (n : Nat) : exactSum m (n + 1) = exactSum m n + (memRead m n).toNat := by
  simp [exactSum, List.range_succ]

/-- The 16-bit accumulator holds the exact sum modulo 2^16. -/
theorem accumulate_toNat (m : Memory) (n : Nat) : (accumulate m n).toNat = exactSum m n % 65536 := by
  induction n with
  | zero => rfl
  | succ n ih =>
    have hb := (memRead m n).isLt
    have hz : ((memRead m n).zeroExtend 16).toNat = (memRead m n).toNat := by
      simp only [BitVec.truncate_eq_setWidth, BitVec.toNat_setWidth]
      omega
    rw [accumulate, BitVec.toNat_add, ih, hz, exactSum_succ]
    omega

/-- Each byte adds at most 255. -/
theorem exactSum_le (m : Memory) (n : Nat) : exactSum m n ≤ 255 * n := by
  induction n with
  | zero => simp [exactSum_zero]
  | succ n ih =>
    have hb := (memRead m n).isLt
    rw [exactSum_succ]
    omega

/-- Memories that agree on FBUF[0..31] have the same pairs there. -/
theorem pairAt_congr {m n : Memory} (h : ∀ a, a < 32 → memRead m a = memRead n a) {off : Nat} (hoff : off + 1 < 32) :
    pairAt m off = pairAt n off := by
  rw [pairAt, pairAt, h off (by omega), h (off + 1) hoff]

theorem accumulate_congr {m n : Memory} (h : ∀ a, a < 32 → memRead m a = memRead n a) (k : Nat) (hk : k ≤ 32) :
    accumulate m k = accumulate n k := by
  induction k with
  | zero => rfl
  | succ k ih => rw [accumulate, accumulate, ih (by omega), h k (by omega)]

/-- What `decodeFrame` can answer, said once (R176): the guard of each outcome and what it commits (R119). -/
theorem decodeFrame_cases (m : Memory) (c : BitVec 6) :
    (c.toNat < 32 ∧ decodeFrame m c = failure .bufferTooShort 0 0 0 0) ∨
    (32 ≤ c.toNat ∧ startMatches m = false ∧ decodeFrame m c = failure .invalidStart (startPair m) 0 0 0) ∨
    (32 ≤ c.toNat ∧ startMatches m = true ∧ 28 < (frameLength m).toNat ∧
      decodeFrame m c = failure .lenOutOfRange (startPair m) (frameLength m) 0 0) ∨
    (32 ≤ c.toNat ∧ startMatches m = true ∧ (frameLength m).toNat ≤ 28 ∧ decodeFrame m c = decodePayload m) := by
  by_cases h0 : c.toNat < 32
  · exact .inl ⟨h0, by simp [decodeFrame, Config.frameBytes, h0]⟩
  · have h0' : 32 ≤ c.toNat := by omega
    cases h1 : startMatches m with
    | false => exact .inr (.inl ⟨h0', rfl, by simp [decodeFrame, Config.frameBytes, h0, h1]⟩)
    | true =>
      by_cases h2 : 28 < (frameLength m).toNat
      · exact .inr (.inr (.inl ⟨h0', rfl, h2, by simp [decodeFrame, Config.frameBytes, Config.maxFlen, h0, h1, h2]⟩))
      · exact .inr (.inr (.inr ⟨h0', rfl, by omega,
          by simp [decodeFrame, Config.frameBytes, Config.maxFlen, h0, h1, h2]⟩))

/-- What steps 4 to 6 can answer (R117, R118). -/
theorem decodePayload_cases (m : Memory) :
    (computedChecksum m (frameLength m).toNat ≠ receivedChecksum m ∧
      decodePayload m = failure .checksumMismatch (startPair m) (frameLength m)
        (computedChecksum m (frameLength m).toNat) (receivedChecksum m)) ∨
    (computedChecksum m (frameLength m).toNat = receivedChecksum m ∧ decodePayload m = success m) := by
  by_cases h : computedChecksum m (frameLength m).toNat = receivedChecksum m
  · exact .inr ⟨h, by simp [decodePayload, h]⟩
  · exact .inl ⟨h, by simp [decodePayload, h]⟩

theorem startMatches_iff (m : Memory) : startMatches m = true ↔ memRead m 0 = 0x42 ∧ memRead m 1 = 0x4D := by
  simp [startMatches, Config.start1, Config.start2]

theorem extractFields_get (m : Memory) (flen : Nat) (k : Fin 14) :
    (extractFields m flen)[k] = if k.val < flen / 2 then fieldPair m k.val else 0 := by
  simp [extractFields]

theorem zeroFields_get (k : Fin 14) : zeroFields[k] = 0 := by simp [zeroFields]

end Sys2Proof.Machine
end

