-- ==== Sys2Proof/Laws/Memory.lean ====
section
/-! SUPPORT. What the memory operations do: read after write in every memory, canonical or not, and that a write and an
emptied buffer keep the canonical form. -/

namespace Sys2Proof.Machine

@[simp] theorem memRead_nil (a : Nat) : memRead [] a = 0 := rfl

theorem memRead_cons (c : Host.Cell) (m : Memory) (a : Nat) :
    memRead (c :: m) a = if c.1 = a then c.2 else memRead m a := rfl

theorem eraseCell_cons (c : Host.Cell) (m : Memory) (a : Nat) :
    eraseCell (c :: m) a = if c.1 = a then eraseCell m a else c :: eraseCell m a := by
  by_cases h : c.1 = a <;> simp [eraseCell, h]

theorem memRead_eraseCell (m : Memory) (a x : Nat) :
    memRead (eraseCell m a) x = if x = a then 0 else memRead m x := by
  induction m with
  | nil => simp [eraseCell]
  | cons c m ih =>
    by_cases h : c.1 = a
    · rw [eraseCell_cons, if_pos h, ih, memRead_cons]
      split
      · rfl
      · rw [if_neg (by omega)]
    · rw [eraseCell_cons, if_neg h, memRead_cons, ih, memRead_cons]
      split <;> split <;> first | rfl | omega

theorem not_mem_eraseCell (m : Memory) (a : Nat) : ∀ c ∈ eraseCell m a, c.1 ≠ a := by
  intro c hc
  simpa using (List.mem_filter.mp hc).2

theorem memRead_insertCell (m : Memory) (a x : Nat) (v : Byte) (h : ∀ c ∈ m, c.1 ≠ a) :
    memRead (insertCell a v m) x = if x = a then v else memRead m x := by
  induction m with
  | nil => simp [insertCell, memRead_cons, eq_comm]
  | cons c m ih =>
    have ih := ih fun d hd => h d (List.mem_cons_of_mem _ hd)
    have hc : c.1 ≠ a := h c List.mem_cons_self
    by_cases hlt : a < c.1
    · simp [insertCell, hlt, memRead_cons, eq_comm]
    · rw [insertCell, if_neg hlt, memRead_cons, ih, memRead_cons]
      split <;> split <;> first | rfl | omega

/-- Read after write, at the written address and at every other. -/
theorem memRead_memWrite (m : Memory) (a x : Nat) (v : Byte) :
    memRead (memWrite m a v) x = if x = a then v else memRead m x := by
  unfold memWrite
  split
  · next h => rw [memRead_eraseCell, h]
  · rw [memRead_insertCell _ _ _ _ (not_mem_eraseCell m a), memRead_eraseCell]
    split <;> rfl

theorem memRead_memWrite_same (m : Memory) (a : Nat) (v : Byte) : memRead (memWrite m a v) a = v := by
  simp [memRead_memWrite]

theorem memRead_memWrite_other (m : Memory) {a x : Nat} (v : Byte) (h : x ≠ a) :
    memRead (memWrite m a v) x = memRead m x := by simp [memRead_memWrite, h]

/-- The canonical form of a non-empty memory, unfolded once. -/
theorem wf_cons (c : Host.Cell) (m : Memory) :
    Memory.wf (c :: m) = true ↔ c.2 ≠ 0 ∧ (∀ d ∈ m, c.1 < d.1) ∧ Memory.wf m = true := by
  simp [Memory.wf, and_assoc]

theorem eraseCell_wf (m : Memory) (a : Nat) (h : Memory.wf m = true) : Memory.wf (eraseCell m a) = true := by
  induction m with
  | nil => rfl
  | cons c m ih =>
    obtain ⟨hv, hlt, hm⟩ := (wf_cons c m).mp h
    rw [eraseCell_cons]
    split
    · exact ih hm
    · exact (wf_cons _ _).mpr ⟨hv, fun d hd => hlt d (List.mem_filter.mp hd).1, ih hm⟩

theorem mem_insertCell {m : Memory} {a : Nat} {v : Byte} {d : Host.Cell} (h : d ∈ insertCell a v m) :
    d = (a, v) ∨ d ∈ m := by
  induction m with
  | nil => simpa [insertCell] using h
  | cons c m ih =>
    rw [insertCell] at h
    split at h
    · simpa using h
    · rcases List.mem_cons.mp h with h | h
      · exact .inr (h ▸ List.mem_cons_self)
      · exact (ih h).imp id (List.mem_cons_of_mem _)

theorem insertCell_wf (m : Memory) (a : Nat) (v : Byte) (hv : v ≠ 0) (hm : Memory.wf m = true)
    (hne : ∀ c ∈ m, c.1 ≠ a) : Memory.wf (insertCell a v m) = true := by
  induction m with
  | nil => exact (wf_cons _ _).mpr ⟨hv, by simp, rfl⟩
  | cons c m ih =>
    obtain ⟨hcv, hclt, hcm⟩ := (wf_cons c m).mp hm
    rw [insertCell]
    split
    · next hac =>
      refine (wf_cons _ _).mpr ⟨hv, fun d hd => ?_, hm⟩
      rcases List.mem_cons.mp hd with rfl | hd
      · exact hac
      · exact Nat.lt_trans hac (hclt d hd)
    · next hac =>
      have hca : c.1 ≠ a := hne c List.mem_cons_self
      refine (wf_cons _ _).mpr ⟨hcv, fun d hd => ?_, ih hcm fun d hd => hne d (List.mem_cons_of_mem _ hd)⟩
      rcases mem_insertCell hd with rfl | hd
      · show c.1 < a
        omega
      · exact hclt d hd

/-- A write keeps the canonical form. -/
theorem memWrite_wf (m : Memory) (a : Nat) (v : Byte) (h : Memory.wf m = true) : Memory.wf (memWrite m a v) = true := by
  unfold memWrite
  split
  · exact eraseCell_wf m a h
  · next hv => exact insertCell_wf _ a v hv (eraseCell_wf m a h) (not_mem_eraseCell m a)

/-- A write inside FBUF[0..31] lists no cell outside it. -/
theorem memWrite_inFrame (m : Memory) (a : Nat) (v : Byte) (ha : a < 32) (h : Memory.inFrame m = true) :
    Memory.inFrame (memWrite m a v) = true := by
  simp only [Memory.inFrame, List.all_eq_true, decide_eq_true_eq] at h ⊢
  have herase : ∀ c ∈ eraseCell m a, c.1 < 32 := fun c hc => h c (List.mem_filter.mp hc).1
  intro c hc
  unfold memWrite at hc
  split at hc
  · exact herase c hc
  · rcases mem_insertCell hc with rfl | hc
    · exact ha
    · exact herase c hc

/-- The emptied buffer is canonical and lists no cell. -/
theorem emptyBuffer_wf (s : State) : Memory.wf (emptyBuffer s).fbuf = true ∧ Memory.inFrame (emptyBuffer s).fbuf = true :=
  ⟨rfl, rfl⟩

/-- In a canonical memory no cell stands below its first one. -/
theorem memRead_eq_zero_of_forall_lt {m : Memory} {a : Nat} (h : ∀ c ∈ m, a < c.1) : memRead m a = 0 := by
  induction m with
  | nil => rfl
  | cons c m ih =>
    rw [memRead_cons, if_neg (Nat.ne_of_gt (h c List.mem_cons_self))]
    exact ih fun d hd => h d (List.mem_cons_of_mem _ hd)

/-- Canonical memories with the same bytes are the same list. -/
theorem wf_ext {m n : Memory} (hm : Memory.wf m = true) (hn : Memory.wf n = true)
    (h : ∀ a, memRead m a = memRead n a) : m = n := by
  induction m generalizing n with
  | nil =>
    cases n with
    | nil => rfl
    | cons d n =>
      have := h d.1
      simp [memRead_cons] at this
      exact absurd this.symm ((wf_cons d n).mp hn).1
  | cons c m ih =>
    obtain ⟨hc, hcm, hm⟩ := (wf_cons c m).mp hm
    cases n with
    | nil =>
      have := h c.1
      simp [memRead_cons] at this
      exact absurd this hc
    | cons d n =>
      obtain ⟨hd, hdn, hn'⟩ := (wf_cons d n).mp hn
      have hkey : c.1 = d.1 := by
        rcases Nat.lt_trichotomy c.1 d.1 with hlt | heq | hgt
        · have h1 := h c.1
          rw [memRead_cons, if_pos rfl, memRead_cons, if_neg (Nat.ne_of_gt hlt),
            memRead_eq_zero_of_forall_lt fun e he => Nat.lt_trans hlt (hdn e he)] at h1
          exact absurd h1 hc
        · exact heq
        · have h1 := h d.1
          rw [memRead_cons, if_neg (Nat.ne_of_gt hgt), memRead_cons, if_pos rfl,
            memRead_eq_zero_of_forall_lt fun e he => Nat.lt_trans hgt (hcm e he)] at h1
          exact absurd h1.symm hd
      have hval : c.2 = d.2 := by
        have h1 := h c.1
        rwa [memRead_cons, if_pos rfl, memRead_cons, if_pos hkey.symm] at h1
      have hcd : c = d := Prod.ext hkey hval
      subst hcd
      congr 1
      refine ih hm hn' fun a => ?_
      by_cases ha : c.1 = a
      · subst ha
        rw [memRead_eq_zero_of_forall_lt hcm, memRead_eq_zero_of_forall_lt hdn]
      · have h1 := h a
        rwa [memRead_cons, if_neg ha, memRead_cons, if_neg ha] at h1

end Sys2Proof.Machine
end

