-- ==== Sys2Proof/Laws/PerInstr.lean ====
section
/-! SUPPORT. Facts about every command as syntax, one lemma per constructor. -/

namespace Sys2Proof

theorem opOf_append (op arg : Byte) : opOf (op ++ arg) = op := by
  apply BitVec.eq_of_getLsbD_eq
  intro i hi
  rw [opOf, BitVec.getLsbD_extractLsb', BitVec.getLsbD_append]
  simp [hi]

theorem argOf_append (op arg : Byte) : argOf (op ++ arg) = arg := by
  apply BitVec.eq_of_getLsbD_eq
  intro i hi
  rw [argOf, BitVec.getLsbD_extractLsb', BitVec.getLsbD_append]
  simp [hi]

theorem append_opOf_argOf (w : Word) : (opOf w ++ argOf w : Word) = w := by
  apply BitVec.eq_of_getLsbD_eq
  intro i hi
  rw [BitVec.getLsbD_append]
  by_cases h : i < 8
  · simp [argOf, h]
  · have : 8 + (i - 8) = i := by omega
    simp [opOf, h, this]
    omega

/-- A command's word holds its OP in bits [15:8] and its ARG in bits [7:0] (R70). -/
def Laws.EncodedFields.Statement (i : Instr) : Prop :=
  opOf (encodeCommand i) = opcodeByte i ∧ argOf (encodeCommand i) = argByte i

namespace Laws.EncodedFields

theorem nop (arg : Byte) : Statement (.nop arg) := ⟨opOf_append _ _, argOf_append _ _⟩
theorem clear (arg : Byte) : Statement (.clear arg) := ⟨opOf_append _ _, argOf_append _ _⟩
theorem push (b : Byte) : Statement (.push b) := ⟨opOf_append _ _, argOf_append _ _⟩
theorem decode (arg : Byte) : Statement (.decode arg) := ⟨opOf_append _ _, argOf_append _ _⟩
theorem read (a : Byte) : Statement (.read a) := ⟨opOf_append _ _, argOf_append _ _⟩
theorem reserved (op arg : Byte) : Statement (.reserved op arg) := ⟨opOf_append _ _, argOf_append _ _⟩

end Laws.EncodedFields

end Sys2Proof
end

