-- ==== Sys2Proof/Laws/State.lean ====
section
/-! SUPPORT. What each update of the state does to each field: one lemma per field per update, each true by definition, so that
no later proof unfolds a record update. -/

namespace Sys2Proof.Machine

variable (s : State)

/-! `respond` drives the response word and nothing else (R71). -/

@[simp] theorem respond_fbuf (w : Word) : (respond w s).fbuf = s.fbuf := rfl
@[simp] theorem respond_fcnt (w : Word) : (respond w s).fcnt = s.fcnt := rfl
@[simp] theorem respond_field (w : Word) : (respond w s).field = s.field := rfl
@[simp] theorem respond_flen (w : Word) : (respond w s).flen = s.flen := rfl
@[simp] theorem respond_csum (w : Word) : (respond w s).csum = s.csum := rfl
@[simp] theorem respond_ckrx (w : Word) : (respond w s).ckrx = s.ckrx := rfl
@[simp] theorem respond_got (w : Word) : (respond w s).got = s.got := rfl
@[simp] theorem respond_status (w : Word) : (respond w s).status = s.status := rfl
@[simp] theorem respond_rsp (w : Word) : (respond w s).rsp = some w := rfl
@[simp] theorem respond_port (w : Word) : (respond w s).port = s.port := rfl

/-! `raiseOverrun` sets OVR and nothing else (R31). -/

@[simp] theorem raiseOverrun_fbuf : (raiseOverrun s).fbuf = s.fbuf := rfl
@[simp] theorem raiseOverrun_fcnt : (raiseOverrun s).fcnt = s.fcnt := rfl
@[simp] theorem raiseOverrun_field : (raiseOverrun s).field = s.field := rfl
@[simp] theorem raiseOverrun_flen : (raiseOverrun s).flen = s.flen := rfl
@[simp] theorem raiseOverrun_csum : (raiseOverrun s).csum = s.csum := rfl
@[simp] theorem raiseOverrun_ckrx : (raiseOverrun s).ckrx = s.ckrx := rfl
@[simp] theorem raiseOverrun_got : (raiseOverrun s).got = s.got := rfl
@[simp] theorem raiseOverrun_status : (raiseOverrun s).status = { s.status with ovr := true } := rfl
@[simp] theorem raiseOverrun_rsp : (raiseOverrun s).rsp = s.rsp := rfl
@[simp] theorem raiseOverrun_port : (raiseOverrun s).port = s.port := rfl

/-! `raiseIllegal` sets ILL and nothing else (R32). -/

@[simp] theorem raiseIllegal_fbuf : (raiseIllegal s).fbuf = s.fbuf := rfl
@[simp] theorem raiseIllegal_fcnt : (raiseIllegal s).fcnt = s.fcnt := rfl
@[simp] theorem raiseIllegal_field : (raiseIllegal s).field = s.field := rfl
@[simp] theorem raiseIllegal_flen : (raiseIllegal s).flen = s.flen := rfl
@[simp] theorem raiseIllegal_csum : (raiseIllegal s).csum = s.csum := rfl
@[simp] theorem raiseIllegal_ckrx : (raiseIllegal s).ckrx = s.ckrx := rfl
@[simp] theorem raiseIllegal_got : (raiseIllegal s).got = s.got := rfl
@[simp] theorem raiseIllegal_status : (raiseIllegal s).status = { s.status with ill := true } := rfl
@[simp] theorem raiseIllegal_rsp : (raiseIllegal s).rsp = s.rsp := rfl
@[simp] theorem raiseIllegal_port : (raiseIllegal s).port = s.port := rfl

/-! `clearSticky` clears OVR and ILL and nothing else (R91). -/

@[simp] theorem clearSticky_fbuf : (clearSticky s).fbuf = s.fbuf := rfl
@[simp] theorem clearSticky_fcnt : (clearSticky s).fcnt = s.fcnt := rfl
@[simp] theorem clearSticky_field : (clearSticky s).field = s.field := rfl
@[simp] theorem clearSticky_flen : (clearSticky s).flen = s.flen := rfl
@[simp] theorem clearSticky_csum : (clearSticky s).csum = s.csum := rfl
@[simp] theorem clearSticky_ckrx : (clearSticky s).ckrx = s.ckrx := rfl
@[simp] theorem clearSticky_got : (clearSticky s).got = s.got := rfl
@[simp] theorem clearSticky_status : (clearSticky s).status = { s.status with ovr := false, ill := false } := rfl
@[simp] theorem clearSticky_rsp : (clearSticky s).rsp = s.rsp := rfl
@[simp] theorem clearSticky_port : (clearSticky s).port = s.port := rfl

/-! `setCode` writes CODE and nothing else (R30). -/

@[simp] theorem setCode_fbuf (c : Code) : (setCode c s).fbuf = s.fbuf := rfl
@[simp] theorem setCode_fcnt (c : Code) : (setCode c s).fcnt = s.fcnt := rfl
@[simp] theorem setCode_field (c : Code) : (setCode c s).field = s.field := rfl
@[simp] theorem setCode_flen (c : Code) : (setCode c s).flen = s.flen := rfl
@[simp] theorem setCode_csum (c : Code) : (setCode c s).csum = s.csum := rfl
@[simp] theorem setCode_ckrx (c : Code) : (setCode c s).ckrx = s.ckrx := rfl
@[simp] theorem setCode_got (c : Code) : (setCode c s).got = s.got := rfl
@[simp] theorem setCode_status (c : Code) : (setCode c s).status = { s.status with code := c } := rfl
@[simp] theorem setCode_rsp (c : Code) : (setCode c s).rsp = s.rsp := rfl
@[simp] theorem setCode_port (c : Code) : (setCode c s).port = s.port := rfl

/-! `appendByte` writes FBUF and FCNT and nothing else (R92). -/

@[simp] theorem appendByte_fbuf (b : Byte) : (appendByte b s).fbuf = memWrite s.fbuf s.fcnt.toNat b := rfl
@[simp] theorem appendByte_fcnt (b : Byte) : (appendByte b s).fcnt = s.fcnt + 1 := rfl
@[simp] theorem appendByte_field (b : Byte) : (appendByte b s).field = s.field := rfl
@[simp] theorem appendByte_flen (b : Byte) : (appendByte b s).flen = s.flen := rfl
@[simp] theorem appendByte_csum (b : Byte) : (appendByte b s).csum = s.csum := rfl
@[simp] theorem appendByte_ckrx (b : Byte) : (appendByte b s).ckrx = s.ckrx := rfl
@[simp] theorem appendByte_got (b : Byte) : (appendByte b s).got = s.got := rfl
@[simp] theorem appendByte_status (b : Byte) : (appendByte b s).status = s.status := rfl
@[simp] theorem appendByte_rsp (b : Byte) : (appendByte b s).rsp = s.rsp := rfl
@[simp] theorem appendByte_port (b : Byte) : (appendByte b s).port = s.port := rfl

/-! `emptyBuffer` writes FBUF and FCNT and nothing else (R91). -/

@[simp] theorem emptyBuffer_fbuf : (emptyBuffer s).fbuf = [] := rfl
@[simp] theorem emptyBuffer_fcnt : (emptyBuffer s).fcnt = 0 := rfl
@[simp] theorem emptyBuffer_field : (emptyBuffer s).field = s.field := rfl
@[simp] theorem emptyBuffer_flen : (emptyBuffer s).flen = s.flen := rfl
@[simp] theorem emptyBuffer_csum : (emptyBuffer s).csum = s.csum := rfl
@[simp] theorem emptyBuffer_ckrx : (emptyBuffer s).ckrx = s.ckrx := rfl
@[simp] theorem emptyBuffer_got : (emptyBuffer s).got = s.got := rfl
@[simp] theorem emptyBuffer_status : (emptyBuffer s).status = s.status := rfl
@[simp] theorem emptyBuffer_rsp : (emptyBuffer s).rsp = s.rsp := rfl
@[simp] theorem emptyBuffer_port : (emptyBuffer s).port = s.port := rfl

/-! `commit` writes the result registers and CODE and nothing else (R111). -/

@[simp] theorem commit_fbuf (r : DecodeResult) : (commit r s).fbuf = s.fbuf := rfl
@[simp] theorem commit_fcnt (r : DecodeResult) : (commit r s).fcnt = s.fcnt := rfl
@[simp] theorem commit_field (r : DecodeResult) : (commit r s).field = r.field := rfl
@[simp] theorem commit_flen (r : DecodeResult) : (commit r s).flen = r.flen := rfl
@[simp] theorem commit_csum (r : DecodeResult) : (commit r s).csum = r.csum := rfl
@[simp] theorem commit_ckrx (r : DecodeResult) : (commit r s).ckrx = r.ckrx := rfl
@[simp] theorem commit_got (r : DecodeResult) : (commit r s).got = r.got := rfl
@[simp] theorem commit_status (r : DecodeResult) : (commit r s).status = { s.status with code := r.code } := rfl
@[simp] theorem commit_rsp (r : DecodeResult) : (commit r s).rsp = s.rsp := rfl
@[simp] theorem commit_port (r : DecodeResult) : (commit r s).port = s.port := rfl

/-! `respondStatus` drives STATUS as the response and nothing else (R121). -/

@[simp] theorem respondStatus_fbuf : (respondStatus s).fbuf = s.fbuf := rfl
@[simp] theorem respondStatus_fcnt : (respondStatus s).fcnt = s.fcnt := rfl
@[simp] theorem respondStatus_field : (respondStatus s).field = s.field := rfl
@[simp] theorem respondStatus_flen : (respondStatus s).flen = s.flen := rfl
@[simp] theorem respondStatus_csum : (respondStatus s).csum = s.csum := rfl
@[simp] theorem respondStatus_ckrx : (respondStatus s).ckrx = s.ckrx := rfl
@[simp] theorem respondStatus_got : (respondStatus s).got = s.got := rfl
@[simp] theorem respondStatus_status : (respondStatus s).status = s.status := rfl
@[simp] theorem respondStatus_rsp : (respondStatus s).rsp = some (statusWord s.status) := rfl
@[simp] theorem respondStatus_port : (respondStatus s).port = s.port := rfl

/-! `placeCommand` puts a word on the port and changes nothing else. -/

@[simp] theorem placeCommand_fbuf (w : Word) : (placeCommand w s).fbuf = s.fbuf := rfl
@[simp] theorem placeCommand_fcnt (w : Word) : (placeCommand w s).fcnt = s.fcnt := rfl
@[simp] theorem placeCommand_field (w : Word) : (placeCommand w s).field = s.field := rfl
@[simp] theorem placeCommand_flen (w : Word) : (placeCommand w s).flen = s.flen := rfl
@[simp] theorem placeCommand_csum (w : Word) : (placeCommand w s).csum = s.csum := rfl
@[simp] theorem placeCommand_ckrx (w : Word) : (placeCommand w s).ckrx = s.ckrx := rfl
@[simp] theorem placeCommand_got (w : Word) : (placeCommand w s).got = s.got := rfl
@[simp] theorem placeCommand_status (w : Word) : (placeCommand w s).status = s.status := rfl
@[simp] theorem placeCommand_rsp (w : Word) : (placeCommand w s).rsp = s.rsp := rfl
@[simp] theorem placeCommand_port (w : Word) : (placeCommand w s).port = HostEvent.command w :: s.port := rfl

/-! `applyReset` gives every register its reset value and keeps the events still to come (R190). -/

@[simp] theorem applyReset_fbuf : (applyReset s).fbuf = State.reset.fbuf := rfl
@[simp] theorem applyReset_fcnt : (applyReset s).fcnt = State.reset.fcnt := rfl
@[simp] theorem applyReset_field : (applyReset s).field = State.reset.field := rfl
@[simp] theorem applyReset_flen : (applyReset s).flen = State.reset.flen := rfl
@[simp] theorem applyReset_csum : (applyReset s).csum = State.reset.csum := rfl
@[simp] theorem applyReset_ckrx : (applyReset s).ckrx = State.reset.ckrx := rfl
@[simp] theorem applyReset_got : (applyReset s).got = State.reset.got := rfl
@[simp] theorem applyReset_status : (applyReset s).status = State.reset.status := rfl
@[simp] theorem applyReset_rsp : (applyReset s).rsp = State.reset.rsp := rfl
@[simp] theorem applyReset_port : (applyReset s).port = s.port := rfl

/-! The next event (R61). -/

theorem takeEvent_nil (h : s.port = []) : takeEvent s = none := by simp [takeEvent, h]

theorem takeEvent_cons {e : HostEvent} {rest : List HostEvent} (h : s.port = e :: rest) :
    takeEvent s = some (e, { s with port := rest }) := by simp [takeEvent, h]

@[simp] theorem takeEvent_placeCommand (w : Word) : takeEvent (placeCommand w s) = some (.command w, s) := rfl

end Sys2Proof.Machine
end

