-- ==== Sys2Proof/Laws/Step.lean ====
section
/-! SUPPORT. What a command and a step can do, said once: each command's next state in terms of the shared operations, and the
three kinds of step. -/

namespace Sys2Proof.Machine

variable (s : State)

theorem exec_nop (arg : Byte) : exec (.nop arg) s = .next (respond 0x0000 s) := rfl

theorem exec_clear (arg : Byte) : exec (.clear arg) s = .next (respond 0x0000 (clearSticky (emptyBuffer s))) := rfl

theorem exec_push_room (b : Byte) (h : s.fcnt.toNat < 32) :
    exec (.push b) s = .next (respond 0x0000 (appendByte b s)) := by
  simp [exec, execPush, Config.frameBytes, h]

theorem exec_push_full (b : Byte) (h : 32 ≤ s.fcnt.toNat) :
    exec (.push b) s = .next (respond 0x0000 (raiseOverrun s)) := by
  simp [exec, execPush, Config.frameBytes, Nat.not_lt.mpr h]

theorem exec_decode (arg : Byte) :
    exec (.decode arg) s = .next (respondStatus (commit (decodeFrame s.fbuf s.fcnt) s)) := rfl

theorem exec_read (a : Byte) : exec (.read a) s = .next (respond (readRegister a s) s) := rfl

theorem exec_reserved (op arg : Byte) : exec (.reserved op arg) s = .next (respond 0x0000 (raiseIllegal s)) := rfl

theorem step_idle (h : s.port = []) : step s = .next s := by
  simp [step, takeEvent_nil s h]

theorem step_command {w : Word} {rest : List HostEvent} (h : s.port = .command w :: rest) :
    step s = exec (decodeCommand w) { s with port := rest } := by
  simp [step, takeEvent_cons s h]

theorem step_reset {rest : List HostEvent} (h : s.port = .reset :: rest) :
    step s = .next (applyReset { s with port := rest }) := by
  simp [step, takeEvent_cons s h]

@[simp] theorem step_placeCommand (w : Word) : step (placeCommand w s) = exec (decodeCommand w) s := by
  simp [step]

end Sys2Proof.Machine
end

