-- ==== Sys2Proof/Laws/Run.lean ====
section
/-! SUPPORT. Runs of several steps, one step at a time. -/

namespace Sys2Proof

open Sys2Proof.Machine

@[simp] theorem run_zero (s : State) : run 0 s = .next s := rfl

/-- One step of any machine's run. -/
theorem coreRun_succ (M : Host.Core) (k : Nat) {s t : M.State} (h : M.step s = .next t) : M.run (k + 1) s = M.run k t := by
  simp [Host.Core.run, h]

/-- A run whose first step answers a next state goes on from it. -/
theorem run_succ {s t : State} (k : Nat) (h : step s = .next t) : run (k + 1) s = run k t := coreRun_succ core k h

/-- A run whose first event is a command word goes on from the state that the decoded command leaves. -/
theorem run_command {s t : State} (k : Nat) {w : Word} {rest : List HostEvent} (hp : s.port = .command w :: rest)
    (h : exec (decodeCommand w) { s with port := rest } = .next t) : run (k + 1) s = run k t :=
  run_succ k ((step_command s hp).trans h)

end Sys2Proof
end

