-- ==== Sys2Proof/Tests/Slice0.lean ====
section
/-! SUPPORT. The model's own tests: expected values are from spec/95_test_vectors.md and the rules; the witnesses show that the
hypotheses of each statement can be met, at the boundaries of their clauses. -/

namespace Sys2Proof.Tests

open Sys2Proof.Machine

/-- The next state of an outcome, where there is one. -/
def after (o : Host.Outcome State Fault Refusal) : Option State :=
  match o with
  | .next s => some s
  | .fault _ => none
  | .refused _ => none

/-- The canonical memory of consecutive bytes from an address on. -/
def cellsFrom : Nat → List Byte → Memory
  | _, [] => []
  | a, b :: bs => if b = 0 then cellsFrom (a + 1) bs else (a, b) :: cellsFrom (a + 1) bs

/-- "Loaded with F" of 95_test_vectors.md. -/
def loaded (bs : List Byte) : State :=
  { State.reset with fbuf := cellsFrom 0 bs, fcnt := BitVec.ofNat 6 bs.length }

/-- GF, the golden frame of E1. -/
def golden : List Byte :=
  [0x42, 0x4D, 0x00, 0x1C, 0x00, 0x07, 0x00, 0x0C, 0x00, 0x0D, 0x00, 0x07, 0x00, 0x0C, 0x00, 0x0D,
   0x05, 0xE2, 0x01, 0x98, 0x00, 0x42, 0x00, 0x0C, 0x00, 0x02, 0x00, 0x02, 0x97, 0x00, 0x03, 0x54]

/-- GF with one byte replaced. -/
def goldenWith (i : Nat) (v : Byte) : List Byte := golden.set i v

/-- The end state of program P1, but for its last responses. -/
def decoded : State :=
  { loaded golden with
    field := #v[7, 12, 13, 7, 12, 13, 1506, 408, 66, 12, 2, 2, 38656, 852]
    flen := 28, csum := 852, ckrx := 852, got := 0x424D
    status := { code := .ok, ovr := false, ill := false }
    rsp := some 0x0001 }

/-- A state with the given events on its port. -/
def onPort (p : List HostEvent) (s : State) : State := { s with port := p }

/-! ## WellFormed -/

theorem test_wellFormed_refuses_reserved_04 : (Instr.reserved 0x04 0x00).wellFormed = false := by decide
theorem test_wellFormed_accepts_reserved_05 : (Instr.reserved 0x05 0x00).wellFormed = true := by decide

/-! ## Decode: each constructor's word written out bit by bit from R72 -/

theorem test_decode_nop : decodeCommand 0b0000000010101011 = .nop 0xAB := by decide
theorem test_decode_clear : decodeCommand 0b0000000111111111 = .clear 0xFF := by decide
theorem test_decode_push : decodeCommand 0b0000001001000010 = .push 0x42 := by decide
theorem test_decode_decode : decodeCommand 0b0000001111111111 = .decode 0xFF := by decide
theorem test_decode_read : decodeCommand 0b0000010000010010 = .read 0x12 := by decide
theorem test_decode_reserved_low : decodeCommand 0b0000010100000000 = .reserved 0x05 0x00 := by decide
theorem test_decode_reserved_device : decodeCommand 0b1110001000000001 = .reserved 0xE2 0x01 := by decide
theorem test_encode_read_csum : encodeCommand (.read 0x12) = 0x0412 := by decide
theorem test_tableWord_short : decodeTableWord 8 0xFF = some (.nop 0xFF) := by decide
theorem test_tableWord_long : decodeTableWord 32 0x0242 = none := by decide

/-! ## One step each -/

/-- V2. -/
theorem test_nop : after (exec (.nop 0xAB) decoded) = some { decoded with rsp := some 0x0000 } := by decide

/-- V7: CLEAR keeps the results of P1. -/
theorem test_clear :
    after (exec (.clear 0x00) { decoded with status := { code := .ok, ovr := true, ill := true } }) =
      some { decoded with fbuf := [], fcnt := 0, rsp := some 0x0000 } := by decide

/-- V4: the 32nd byte. -/
theorem test_push_last : after (exec (.push 0x54) (loaded (golden.take 31))) =
    some { loaded golden with rsp := some 0x0000 } := by decide

/-- V5: the 33rd byte. -/
theorem test_push_overrun : after (exec (.push 0x42) (loaded golden)) =
    some { loaded golden with status := { code := .none, ovr := true, ill := false }, rsp := some 0x0000 } := by decide

/-- E1. -/
theorem test_decode_golden : after (exec (.decode 0x00) (loaded golden)) = some decoded := by decide

/-- V35: an odd frame length; FIELD[13] is 0 while CKRX is 851. -/
theorem test_decode_odd_length :
    (after (exec (.decode 0x00) (loaded (((golden.set 3 0x1B).set 30 0x03).set 31 0x53)))).map
      (fun t => (statusWord t.status, t.field[12], t.field[13], t.csum, t.ckrx)) =
    some (0x0001, 38656, 0, 851, 851) := by decide

/-- V51. -/
theorem test_read_field : (after (exec (.read 0x06) decoded)).map State.rsp = some (some 0x05E2) := by decide

/-- V57. -/
theorem test_read_reserved : (after (exec (.read 0x40) decoded)).map State.rsp = some (some 0x0000) := by decide

/-- V61. -/
theorem test_reserved : after (exec (.reserved 0x05 0x00) State.reset) =
    some { State.reset with status := { code := .none, ovr := false, ill := true }, rsp := some 0x0000 } := by decide

/-- V70. -/
theorem test_reset_event : after (step (onPort [.reset] decoded)) = some State.reset := by decide

/-- V3 from reset, as the very next step. -/
theorem test_withFetchWord : after (step (State.reset.withFetchWord 16 0x0242)) =
    some { State.reset with fbuf := [(0, 0x42)], fcnt := 1, rsp := some 0x0000 } := by decide

/-- R79's own example, a register by name, and an operand out of range. -/
theorem test_assemble_read_csum : assembleText "READ CSUM ; 0x0412" = some [0x0412] := by decide
theorem test_assemble_lines : assembleText "PUSH 0x42\nREAD FIELD13\nDECODE" = some [0x0242, 0x040D, 0x0300] := by decide
theorem test_assemble_range : assembleText "PUSH 256" = none := by decide

/-! ## Witnesses: states and operands that meet the hypotheses of the statements -/

theorem witness_DecodeOfEncodeIsIdentity : (Instr.reserved 0xFF 0xFF).wellFormed = true := by decide

theorem witness_PseudoInstructionsExpand :
    ((List.replicate 32 255).length = 32 ∧ ∀ n ∈ List.replicate 32 255, n < 256) ∧ (List.replicate 31 0).length ≠ 32 := by
  decide

theorem witness_StepExecutesTheNextCommand :
    (placeCommand 0x0242 State.reset).port = .command 0x0242 :: [] ∧ (Instr.push 0x42).wellFormed = true ∧
      (0x0242 : Word) = encodeCommand (.push 0x42) := by decide

theorem witness_ResetEventAppliesResetValues : (onPort [.reset] decoded).port = .reset :: [] := by decide

theorem witness_StepWithoutEventStandsStill : decoded.port = [] := by decide

theorem witness_EveryCommandWordIsAnsweredInOneStep :
    (placeCommand 0xFFFF decoded).port = .command 0xFFFF :: [] := by decide

/-- The first and the last word of the OPs of NOP and CLEAR. -/
theorem witness_NopOnlyResponds : (0x0000 : Word).toNat / 256 = 0 ∧ (0x00FF : Word).toNat / 256 = 0 := by decide

theorem witness_ClearEmptiesBufferAndKeepsResults :
    (0x0100 : Word).toNat / 256 = 1 ∧ (0x01FF : Word).toNat / 256 = 1 := by decide

theorem witness_PushAppendsOrOverruns :
    (0x0200 : Word).toNat / 256 = 2 ∧ (0x02FF : Word).toNat / 256 = 2 ∧
    State.reset.fcnt.toNat < 32 ∧ (loaded (golden.take 31)).fcnt.toNat < 32 ∧ 32 ≤ (loaded golden).fcnt.toNat := by decide

theorem witness_PushedBytesFillTheBufferInOrder :
    (onPort (commandEvents (golden.map .push) ++ [.reset]) State.reset).fcnt = 0 ∧ golden.length ≤ 32 ∧
      (onPort (commandEvents (golden.map .push) ++ [.reset]) State.reset).port =
        commandEvents (golden.map .push) ++ [.reset] := by decide

theorem witness_DecodeOfShortBuffer : (loaded (golden.take 31)).fcnt.toNat < 32 := by decide

/-- V12, V13: one differing byte in either position. -/
theorem witness_DecodeOfBadStartBytes :
    ((loaded (goldenWith 1 0x4E)).fcnt.toNat = 32 ∧ memRead (loaded (goldenWith 1 0x4E)).fbuf 1 ≠ 0x4D) ∧
      (loaded (goldenWith 0 0x00)).fcnt.toNat = 32 ∧ memRead (loaded (goldenWith 0 0x00)).fbuf 0 ≠ 0x42 := by decide

/-- V17: the smallest length that is refused. -/
theorem witness_DecodeOfBadLength :
    (loaded (goldenWith 3 0x1D)).fcnt.toNat = 32 ∧ memRead (loaded (goldenWith 3 0x1D)).fbuf 0 = 0x42 ∧
      memRead (loaded (goldenWith 3 0x1D)).fbuf 1 = 0x4D ∧ 28 < pairNat (loaded (goldenWith 3 0x1D)).fbuf 2 := by decide

/-- V22: the largest length that is accepted, the checksum off by one. -/
theorem witness_DecodeOfBadChecksum :
    (loaded (goldenWith 31 0x55)).fcnt.toNat = 32 ∧ memRead (loaded (goldenWith 31 0x55)).fbuf 0 = 0x42 ∧
      memRead (loaded (goldenWith 31 0x55)).fbuf 1 = 0x4D ∧ pairNat (loaded (goldenWith 31 0x55)).fbuf 2 ≤ 28 ∧
      exactSum (loaded (goldenWith 31 0x55)).fbuf (pairNat (loaded (goldenWith 31 0x55)).fbuf 2 + 2) ≠
        pairNat (loaded (goldenWith 31 0x55)).fbuf 30 := by decide

theorem witness_DecodeOfValidFrame :
    (loaded golden).fcnt.toNat = 32 ∧ memRead (loaded golden).fbuf 0 = 0x42 ∧ memRead (loaded golden).fbuf 1 = 0x4D ∧
      pairNat (loaded golden).fbuf 2 ≤ 28 ∧
      exactSum (loaded golden).fbuf (pairNat (loaded golden).fbuf 2 + 2) = pairNat (loaded golden).fbuf 30 := by decide

/-- V24 (received above 6801) and V30 (received below 143, length 0). -/
theorem witness_ComputedSumIsExactAndBounded :
    ((loaded (golden.take 30 ++ [0xFF, 0xFF])).fcnt.toNat = 32 ∧
      memRead (loaded (golden.take 30 ++ [0xFF, 0xFF])).fbuf 0 = 0x42 ∧
      memRead (loaded (golden.take 30 ++ [0xFF, 0xFF])).fbuf 1 = 0x4D ∧
      pairNat (loaded (golden.take 30 ++ [0xFF, 0xFF])).fbuf 2 ≤ 28 ∧
      6801 < pairNat (loaded (golden.take 30 ++ [0xFF, 0xFF])).fbuf 30) ∧
    (loaded (0x42 :: 0x4D :: List.replicate 30 0)).fcnt.toNat = 32 ∧
      memRead (loaded (0x42 :: 0x4D :: List.replicate 30 0)).fbuf 0 = 0x42 ∧
      memRead (loaded (0x42 :: 0x4D :: List.replicate 30 0)).fbuf 1 = 0x4D ∧
      pairNat (loaded (0x42 :: 0x4D :: List.replicate 30 0)).fbuf 2 ≤ 28 ∧
      pairNat (loaded (0x42 :: 0x4D :: List.replicate 30 0)).fbuf 30 < 143 := by decide

/-- Two states with the same frame and different results, flags and response. -/
theorem witness_DecodeDependsOnlyOnBufferAndCount :
    (loaded golden).fcnt = decoded.fcnt ∧ (∀ i, i < 32 → memRead (loaded golden).fbuf i = memRead decoded.fbuf i) ∧
      (loaded golden).csum ≠ decoded.csum := by decide

theorem witness_DecodeRespondsWithStatus :
    (decodeFrame (loaded golden).fbuf (loaded golden).fcnt).code = .ok := by decide

/-- V27's bytes, and the last byte of the summed range. -/
theorem witness_SwappedBytesPassTheSum :
    pairNat (loaded golden).fbuf 2 ≤ 28 ∧ 4 ≤ 5 ∧ 5 < pairNat (loaded golden).fbuf 2 + 2 ∧ 4 ≤ 29 ∧
      29 < pairNat (loaded golden).fbuf 2 + 2 := by decide

/-- The hypothesis of the injectivity clause. -/
theorem witness_CombineJoinsExactly : combine 0x1C 0x00 = combine 0x1C 0x00 ∧ combine 0x1C 0x00 ≠ combine 0x00 0x1C := by
  decide

/-- A reserved address of each range, at its ends. -/
theorem witness_ReadReturnsTheRegisterMap :
    ((0x0400 : Word).toNat / 256 = 4 ∧ (0x04FF : Word).toNat / 256 = 4) ∧
    ∀ a ∈ [(0x0E : Byte), 0x0F, 0x16, 0x1F, 0x40, 0xFF],
      a = 0x0E ∨ a = 0x0F ∨ (0x16 ≤ a.toNat ∧ a.toNat ≤ 0x1F) ∨ 0x40 ≤ a.toNat := by decide

/-- The last field of the golden frame, beside `witness_DecodeOfValidFrame`. -/
theorem witness_FieldViewAgreesWithByteView : (13 : Fin 14).val < pairNat (loaded golden).fbuf 2 / 2 := by decide

theorem witness_ReservedOpcodesSetIllOnly : 5 ≤ (0x0500 : Word).toNat / 256 ∧ 5 ≤ (0xFFFF : Word).toNat / 256 := by decide

theorem witness_FrameOfNopAndRead :
    Instr.nop 0x00 ∈ [Instr.nop 0x00, Instr.read 0x00] ∧ Instr.read 0xFF ∈ [Instr.nop 0xFF, Instr.read 0xFF] := by decide

theorem witness_FrameOfPush : (5 : Nat) ≠ State.reset.fcnt.toNat ∧ 32 ≤ (loaded golden).fcnt.toNat := by decide

theorem witness_OnlyDecodeWritesResults :
    (∀ arg : Byte, Instr.clear 0x00 ≠ Instr.decode arg) ∧ (after (exec (.clear 0x00) decoded)).isSome = true :=
  ⟨fun _ h => (by cases h), by decide⟩

theorem witness_StickyFlagsSetAndCleared : (after (exec (.push 0x00) (loaded golden))).isSome = true := by decide

theorem witness_CommandsButPushAreIdempotent : ∀ b : Byte, Instr.decode 0x00 ≠ Instr.push b := fun _ h => by cases h

theorem witness_ResultsStandUntilTheNextDecode :
    (∀ i ∈ [Instr.clear 0x00, .push 0x42, .reserved 0x07 0x00], i.wellFormed = true ∧ ∀ arg, i ≠ .decode arg) ∧
      (onPort (commandEvents [.clear 0x00, .push 0x42, .reserved 0x07 0x00] ++ [.reset]) decoded).port =
        commandEvents [.clear 0x00, .push 0x42, .reserved 0x07 0x00] ++ [.reset] := by
  refine ⟨fun i hi => ?_, rfl⟩
  simp only [List.mem_cons, List.not_mem_nil, or_false] at hi
  rcases hi with rfl | rfl | rfl <;> exact ⟨by decide, fun _ h => by cases h⟩

theorem witness_ResetAndClearDifferInResultsOnly : (onPort [.reset] decoded).port = .reset :: [] := by decide

/-- The invariants hold in the state after the golden decode, and a step goes on from it. -/
theorem witness_StepKeepsTheInvariants :
    Inv (onPort [.command 0x0300] decoded) ∧ (after (step (onPort [.command 0x0300] decoded))).isSome = true :=
  ⟨by constructor <;> decide, by decide⟩

theorem witness_StepKeepsTheBufferCanonical :
    (placeCommand 0x0254 (loaded (golden.take 31))).fbuf.wf = true ∧
      (placeCommand 0x0254 (loaded (golden.take 31))).fbuf.inFrame = true ∧
      (after (step (placeCommand 0x0254 (loaded (golden.take 31))))).isSome = true := by decide

theorem witness_UnfilledSlotsStayZero :
    (placeCommand 0x024D (loaded [0x42])).fcnt.toNat ≤ 32 ∧
      (∀ a, (placeCommand 0x024D (loaded [0x42])).fcnt.toNat ≤ a → memRead (placeCommand 0x024D (loaded [0x42])).fbuf a = 0) ∧
      (after (step (placeCommand 0x024D (loaded [0x42])))).isSome = true := by
  refine ⟨by decide, fun a ha => ?_, by decide⟩
  have h1 : 1 ≤ a := ha
  show memRead [(0, (0x42 : Byte))] a = 0
  simp only [memRead]
  rw [if_neg (by omega)]

theorem witness_CheckFrameRefinesSourceDecode :
    golden.length = 32 ∧ (onPort (commandEvents (checkFrameCommands golden) ++ [.reset]) decoded).port =
      commandEvents (checkFrameCommands golden) ++ [.reset] := by decide

end Sys2Proof.Tests
end

section
/-! The scope of the machine (00_scope.md): what FPCV does when the host issues nothing. -/

namespace Sys2Proof.Proofs

open Sys2Proof.Machine

/-- Settles O10: a step begins by taking the next event, and an empty port gives it none (`step_idle`). -/
theorem stepWithoutEventStandsStill : Obligations.StepWithoutEventStandsStill := by
  intro s hport
  exact step_idle s hport

end Sys2Proof.Proofs
end

section
/-! What a command, and then a step, can do to a state (10_state.md): an inversion of `exec`, and the rule by which a property
of states passes through every step. -/

namespace Sys2Proof.Proofs

open Sys2Proof.Machine

/-- The states a command can leave, one case per way it can go (R74, R90 to R92, R111, R150), PUSH with the guard of each. -/
inductive CommandEffect (s : State) : Instr → State → Prop where
  | nop (arg : Byte) : CommandEffect s (.nop arg) (respond 0x0000 s)
  | clear (arg : Byte) : CommandEffect s (.clear arg) (respond 0x0000 (clearSticky (emptyBuffer s)))
  | pushRoom (b : Byte) (hroom : s.fcnt.toNat < 32) : CommandEffect s (.push b) (respond 0x0000 (appendByte b s))
  | pushFull (b : Byte) (hfull : 32 ≤ s.fcnt.toNat) : CommandEffect s (.push b) (respond 0x0000 (raiseOverrun s))
  | decode (arg : Byte) : CommandEffect s (.decode arg) (respondStatus (commit (decodeFrame s.fbuf s.fcnt) s))
  | read (a : Byte) : CommandEffect s (.read a) (respond (readRegister a s) s)
  | reserved (op arg : Byte) : CommandEffect s (.reserved op arg) (respond 0x0000 (raiseIllegal s))

/-- Every command has an effect, and `exec` answers it. -/
theorem exists_commandEffect (i : Instr) (s : State) : ∃ t, CommandEffect s i t ∧ exec i s = .next t := by
  cases i with
  | nop arg => exact ⟨_, .nop arg, exec_nop s arg⟩
  | clear arg => exact ⟨_, .clear arg, exec_clear s arg⟩
  | push b =>
    rcases Nat.lt_or_ge s.fcnt.toNat 32 with hroom | hfull
    · exact ⟨_, .pushRoom b hroom, exec_push_room s b hroom⟩
    · exact ⟨_, .pushFull b hfull, exec_push_full s b hfull⟩
  | decode arg => exact ⟨_, .decode arg, exec_decode s arg⟩
  | read a => exact ⟨_, .read a, exec_read s a⟩
  | reserved op arg => exact ⟨_, .reserved op arg, exec_reserved s op arg⟩

/-- The inversion of `exec`: a proof about what a command leaves takes this apart, one named case per effect. -/
theorem commandEffect_of_exec {i : Instr} {s t : State} (h : exec i s = .next t) : CommandEffect s i t := by
  obtain ⟨u, heffect, hexec⟩ := exists_commandEffect i s
  cases hexec.symm.trans h
  exact heffect

/-- What every reset gives, every command keeps and the port has no part in, every step keeps (R7, R61, R190). -/
theorem step_preserves {P : State → Prop} (hport : ∀ s p, P s → P { s with port := p }) (hreset : ∀ s, P (applyReset s))
    (hexec : ∀ i s t, P s → exec i s = .next t → P t) {s t : State} (hs : P s) (h : step s = .next t) : P t := by
  cases hp : s.port with
  | nil =>
    cases (step_idle s hp).symm.trans h
    exact hs
  | cons e rest =>
    cases e with
    | command w => exact hexec _ _ t (hport s rest hs) ((step_command s hp).symm.trans h)
    | reset =>
      cases (step_reset s hp).symm.trans h
      exact hreset _

/-- Only DECODE writes the result registers and CODE. -/
theorem sameResults_of_exec {i : Instr} {s t : State} (hi : ∀ arg, i ≠ .decode arg) (h : exec i s = .next t) :
    sameResults s t := by
  cases commandEffect_of_exec h with
  | decode arg => exact absurd rfl (hi arg)
  | nop | clear | pushRoom | pushFull | read | reserved => exact ⟨rfl, rfl, rfl, rfl, rfl, rfl⟩

/-- Only CLEAR and a PUSH with room write FBUF, and each keeps its canonical form. -/
theorem exec_keeps_buffer_canonical {i : Instr} {s t : State} (hwf : s.fbuf.wf = true) (hin : s.fbuf.inFrame = true)
    (h : exec i s = .next t) : t.fbuf.wf = true ∧ t.fbuf.inFrame = true := by
  cases commandEffect_of_exec h with
  | clear => exact emptyBuffer_wf s
  | pushRoom b hroom => exact ⟨memWrite_wf _ _ b hwf, memWrite_inFrame _ _ b hroom hin⟩
  | nop | pushFull | decode | read | reserved => exact ⟨hwf, hin⟩

/-- The fill count stays at most 32: a PUSH counts only while it is below (R92). -/
theorem exec_keeps_fcnt_le {i : Instr} {s t : State} (hle : s.fcnt.toNat ≤ 32) (h : exec i s = .next t) :
    t.fcnt.toNat ≤ 32 := by
  cases commandEffect_of_exec h with
  | clear => exact Nat.zero_le 32
  | pushRoom b hroom =>
    rw [respond_fcnt, appendByte_fcnt, BitVec.toNat_add]
    exact (Nat.mod_le _ _).trans hroom
  | nop | pushFull | decode | read | reserved => exact hle

end Sys2Proof.Proofs
end

section
/-! What the result registers hold after a DECODE (41_decode.md): the start pair, the bound of R122 on the sum, and the items of
R37 that speak of CODE and the result registers, which `decodeFrame` always meets. -/

namespace Sys2Proof.Proofs

open Sys2Proof.Machine

/-- GOT tells whether the start bytes match (R113). -/
theorem startPair_eq_marker_iff (m : Memory) : startPair m = 0x424D ↔ startMatches m = true := by
  have h0 := (memRead m 0).isLt
  have h1 := (memRead m 1).isLt
  have hpair : (startPair m).toNat = 256 * (memRead m 0).toNat + (memRead m 1).toNat := pairAt_toNat m 0
  rw [startMatches_iff]
  bv_omega

theorem exactSum_mono (m : Memory) : Monotone (exactSum m) :=
  monotone_nat_of_le_succ fun n => by rw [exactSum_succ]; exact Nat.le_add_right _ _

/-- `n` further bytes add at most 255 each. -/
theorem exactSum_add_le (m : Memory) (a n : Nat) : exactSum m (a + n) ≤ exactSum m a + 255 * n := by
  induction n with
  | zero => exact Nat.le_refl _
  | succ n ih =>
    have hb := (memRead m (a + n)).isLt
    rw [← Nat.add_assoc, exactSum_succ]
    omega

/-- The upper bound of R122: the two start bytes, a length whose two bytes add at most 28, and 26 more bytes. -/
theorem exactSum_le_of_header {m : Memory} (hstart : startMatches m = true) (hlen : (frameLength m).toNat ≤ 28) :
    exactSum m ((frameLength m).toNat + 2) ≤ 6801 := by
  obtain ⟨h0, h1⟩ := (startMatches_iff m).mp hstart
  have hheader : exactSum m 4 = 0x42 + 0x4D + (memRead m 2).toNat + (memRead m 3).toNat := by
    simp [exactSum_succ, exactSum_zero, h0, h1]
  have hlength : (frameLength m).toNat = 256 * (memRead m 2).toNat + (memRead m 3).toNat := pairAt_toNat m 2
  calc exactSum m ((frameLength m).toNat + 2)
      ≤ exactSum m (4 + 26) := exactSum_mono m (by omega)
    _ ≤ exactSum m 4 + 255 * 26 := exactSum_add_le m 4 26
    _ ≤ 6801 := by omega

/-- The 16-bit sum is the exact one, so it has the same bound. -/
theorem computedChecksum_le_of_header {m : Memory} (hstart : startMatches m = true) (hlen : (frameLength m).toNat ≤ 28) :
    (computedChecksum m (frameLength m).toNat).toNat ≤ 6801 := by
  rw [computedChecksum, accumulate_toNat]
  exact (Nat.mod_le _ _).trans (exactSum_le_of_header hstart hlen)

/-- The items of R37 about CODE and the result registers, under the names they have in `Inv`. -/
structure ResultsInv (r : DecodeResult) : Prop where
  noFieldUnlessOk : r.code ≠ .ok → ∀ k : Fin 14, r.field[k] = 0
  whenOk : r.code = .ok → r.csum = r.ckrx ∧ r.csum.toNat ≤ 6801 ∧ r.flen.toNat ≤ 28 ∧ r.got = 0x424D ∧
    ∀ k : Fin 14, r.flen.toNat / 2 ≤ k.val → r.field[k] = 0
  whenInvalidStart : r.code = .invalidStart → r.got ≠ 0x424D ∧ r.flen = 0 ∧ r.csum = 0 ∧ r.ckrx = 0
  whenNothingDecoded : r.code = .none ∨ r.code = .bufferTooShort → r.got = 0 ∧ r.flen = 0 ∧ r.csum = 0 ∧ r.ckrx = 0
  whenLenOutOfRange : r.code = .lenOutOfRange → 28 < r.flen.toNat ∧ r.got = 0x424D ∧ r.csum = 0 ∧ r.ckrx = 0
  whenMismatch : r.code = .checksumMismatch → r.csum ≠ r.ckrx ∧ r.flen.toNat ≤ 28 ∧ r.got = 0x424D

/-- The result of a valid frame. -/
theorem success_resultsInv {m : Memory} (hstart : startMatches m = true) (hlen : (frameLength m).toNat ≤ 28)
    (hsum : computedChecksum m (frameLength m).toNat = receivedChecksum m) : ResultsInv (success m) where
  noFieldUnlessOk h := absurd rfl h
  whenOk _ := by
    refine ⟨hsum, computedChecksum_le_of_header hstart hlen, hlen, (startPair_eq_marker_iff m).mpr hstart, fun k hk => ?_⟩
    exact (extractFields_get m _ k).trans (if_neg (Nat.not_lt.mpr hk))
  whenInvalidStart h := by cases h
  whenNothingDecoded h := by rcases h with h | h <;> cases h
  whenLenOutOfRange h := by cases h
  whenMismatch h := by cases h

/-- The result of a failure, given what R37 asks of its diagnostics under its own CODE. -/
theorem failure_resultsInv {c : Code} {got flen csum ckrx : Word} (hok : c ≠ .ok)
    (hstart : c = .invalidStart → got ≠ 0x424D ∧ flen = 0 ∧ csum = 0 ∧ ckrx = 0)
    (hnone : c = .none ∨ c = .bufferTooShort → got = 0 ∧ flen = 0 ∧ csum = 0 ∧ ckrx = 0)
    (hlen : c = .lenOutOfRange → 28 < flen.toNat ∧ got = 0x424D ∧ csum = 0 ∧ ckrx = 0)
    (hsum : c = .checksumMismatch → csum ≠ ckrx ∧ flen.toNat ≤ 28 ∧ got = 0x424D) :
    ResultsInv (failure c got flen csum ckrx) :=
  ⟨fun _ => zeroFields_get, fun h => absurd h hok, hstart, hnone, hlen, hsum⟩

/-- Whatever FBUF and FCNT hold, a DECODE ends with results that meet R37. -/
theorem decodeFrame_resultsInv (m : Memory) (c : BitVec 6) : ResultsInv (decodeFrame m c) := by
  rcases decodeFrame_cases m c with ⟨-, h⟩ | ⟨-, hstart, h⟩ | ⟨-, hstart, hlen, h⟩ | ⟨-, hstart, hlen, h⟩
  · rw [h]
    exact failure_resultsInv (by simp) (by simp) (fun _ => ⟨rfl, rfl, rfl, rfl⟩) (by simp) (by simp)
  · rw [h]
    have hgot : startPair m ≠ 0x424D := fun hg => by simp [(startPair_eq_marker_iff m).mp hg] at hstart
    exact failure_resultsInv (by simp) (fun _ => ⟨hgot, rfl, rfl, rfl⟩) (by simp) (by simp) (by simp)
  · rw [h]
    have hgot := (startPair_eq_marker_iff m).mpr hstart
    exact failure_resultsInv (by simp) (by simp) (by simp) (fun _ => ⟨hlen, hgot, rfl, rfl⟩) (by simp)
  · have hgot := (startPair_eq_marker_iff m).mpr hstart
    rcases decodePayload_cases m with ⟨hsum, hp⟩ | ⟨hsum, hp⟩
    · rw [h, hp]
      exact failure_resultsInv (by simp) (by simp) (by simp) (by simp) (fun _ => ⟨hsum, hlen, hgot⟩)
    · rw [h, hp]
      exact success_resultsInv hstart hlen hsum

end Sys2Proof.Proofs
end

section
/-! The invariants of the state (10_state.md R37): what they ask of STATUS always holds, and the rest falls into one part per
register group, each kept by every command. -/

namespace Sys2Proof.Proofs

open Sys2Proof.Machine

/-- STATUS as a number (R29), by its 24 values. -/
theorem statusWord_toNat (st : Status) : (statusWord st).toNat = statusNumber st := by
  obtain ⟨code, ovr, ill⟩ := st
  cases code <;> cases ovr <;> cases ill <;> rfl

theorem codeNumber_le (c : Code) : codeNumber c ≤ 5 := by cases c <;> decide

/-- CODE is never 6 or 7, in any state (R30). -/
theorem statusWord_code_le (st : Status) : (statusWord st).toNat % 8 ≤ 5 := by
  have hcode := codeNumber_le st.code
  rw [statusWord_toNat, statusNumber]
  omega

/-- Bits [15:5] of STATUS are 0, in any state (R29). -/
theorem statusWord_reserved_eq_zero (st : Status) : (statusWord st).toNat / 32 = 0 := by
  have hcode := codeNumber_le st.code
  have hovr := st.ovr.toNat_le
  have hill := st.ill.toNat_le
  rw [statusWord_toNat, statusNumber]
  omega

/-- The result registers and CODE of a state, as a DECODE commits them. -/
def resultsOf (s : State) : DecodeResult :=
  { code := s.status.code, field := s.field, got := s.got, flen := s.flen, csum := s.csum, ckrx := s.ckrx }

@[simp] theorem resultsOf_commit (r : DecodeResult) (s : State) : resultsOf (commit r s) = r := rfl

@[simp] theorem resultsOf_respondStatus (s : State) : resultsOf (respondStatus s) = resultsOf s := rfl

theorem resultsOf_applyReset (s : State) : resultsOf (applyReset s) = failure .none 0 0 0 0 := rfl

theorem resultsOf_eq_of_sameResults {s t : State} (h : sameResults s t) : resultsOf t = resultsOf s := by
  obtain ⟨hfield, hflen, hcsum, hckrx, hgot, hcode⟩ := h
  simp [resultsOf, hfield, hflen, hcsum, hckrx, hgot, hcode]

/-- `Inv` by its parts: the fill count, the results, and the form of FBUF. -/
theorem inv_iff (s : State) :
    Inv s ↔ s.fcnt.toNat ≤ 32 ∧ ResultsInv (resultsOf s) ∧ s.fbuf.wf = true ∧ s.fbuf.inFrame = true := by
  constructor
  · intro h
    exact ⟨h.fcntRange,
      ⟨h.noFieldUnlessOk, h.whenOk, h.whenInvalidStart, h.whenNothingDecoded, h.whenLenOutOfRange, h.whenMismatch⟩,
      h.fbufCanonical, h.fbufInFrame⟩
  · rintro ⟨hfcnt, ⟨hfield, hok, hstart, hnone, hlen, hsum⟩, hwf, hin⟩
    exact ⟨hfcnt, statusWord_code_le _, hfield, hok, hstart, hnone, hlen, hsum, statusWord_reserved_eq_zero _, hwf, hin⟩

/-- A command keeps the results part: DECODE commits results that meet it, the others write none. -/
theorem exec_keeps_resultsInv {i : Instr} {s t : State} (hs : ResultsInv (resultsOf s)) (h : exec i s = .next t) :
    ResultsInv (resultsOf t) := by
  by_cases hi : ∃ arg, i = .decode arg
  · obtain ⟨arg, rfl⟩ := hi
    cases commandEffect_of_exec h
    rw [resultsOf_respondStatus, resultsOf_commit]
    exact decodeFrame_resultsInv _ _
  · rw [resultsOf_eq_of_sameResults (sameResults_of_exec (not_exists.mp hi) h)]
    exact hs

/-- Every command keeps the invariants, part by part. -/
theorem exec_keeps_inv {i : Instr} {s t : State} (hs : Inv s) (h : exec i s = .next t) : Inv t := by
  obtain ⟨hfcnt, hresults, hwf, hin⟩ := (inv_iff s).mp hs
  exact (inv_iff t).mpr ⟨exec_keeps_fcnt_le hfcnt h, exec_keeps_resultsInv hresults h, exec_keeps_buffer_canonical hwf hin h⟩

/-- The invariants hold after every reset. -/
theorem applyReset_inv (s : State) : Inv (applyReset s) := by
  have hresults : ResultsInv (resultsOf (applyReset s)) := by
    rw [resultsOf_applyReset]
    exact failure_resultsInv (by simp) (by simp) (fun _ => ⟨rfl, rfl, rfl, rfl⟩) (by simp) (by simp)
  exact (inv_iff _).mpr ⟨Nat.zero_le 32, hresults, rfl, rfl⟩

/-- The invariants say nothing about the events to come. -/
theorem inv_withPort {s : State} (p : List HostEvent) (h : Inv s) : Inv { s with port := p } :=
  (inv_iff _).mpr ((inv_iff s).mp h)

end Sys2Proof.Proofs
end

section
/-! The statements of 10_state.md. -/

namespace Sys2Proof.Proofs

open Sys2Proof.Machine

/-- Settles O45: resets meet the invariants and commands keep them. -/
theorem stepKeepsTheInvariants : Obligations.StepKeepsTheInvariants := by
  intro s t hs h
  exact step_preserves (fun _ => inv_withPort) applyReset_inv (fun _ _ _ => exec_keeps_inv) hs h

/-- Settles O39, by the inversion of `exec`. -/
theorem onlyDecodeWritesResults : Obligations.OnlyDecodeWritesResults := by
  intro i s t hi h
  exact sameResults_of_exec hi h

/-- Settles O46: commands keep the form of FBUF, and a reset lists no cell. -/
theorem stepKeepsTheBufferCanonical : Obligations.StepKeepsTheBufferCanonical := by
  intro s t hwf hin h
  exact step_preserves (P := fun u => u.fbuf.wf = true ∧ u.fbuf.inFrame = true) (fun _ _ hs => hs) (fun _ => ⟨rfl, rfl⟩)
    (fun _ _ _ ⟨hwf', hin'⟩ => exec_keeps_buffer_canonical hwf' hin') ⟨hwf, hin⟩ h

/-- Settles O13: no command reads `rsp`, and each one's last act overwrites it. -/
theorem commandsIgnoreTheLastResponse : Obligations.CommandsIgnoreTheLastResponse := by
  intro i s r
  cases i with
  | nop | clear | push | decode | read | reserved => rfl

/-- Settles O44: `State.reset` is what a reset of it leaves. -/
theorem resetMeetsTheInvariants : Obligations.ResetMeetsTheInvariants := applyReset_inv State.reset

end Sys2Proof.Proofs
end

section
/-! The decoder from the two halves of a word (30_encoding.md R70, R72): which command a word with given OP and ARG selects. -/

namespace Sys2Proof.Proofs

/-- OP as a number (R70). -/
theorem opOf_toNat (w : Word) : (opOf w).toNat = w.toNat / 256 := by
  have hw := w.isLt
  rw [opOf, BitVec.extractLsb'_toNat, Nat.shiftRight_eq_div_pow]
  exact Nat.mod_eq_of_lt (by omega)

/-- ARG is the low byte (R70). -/
theorem argOf_eq_ofNat (w : Word) : argOf w = BitVec.ofNat 8 w.toNat := rfl

/-- A word with the OP and the ARG of a well-formed command selects that command: the five OPs of R72 differ, and a reserved
one is none of them. -/
theorem decodeCommand_eq_of_fields {w : Word} {i : Instr} (hwf : i.wellFormed = true) (hop : opOf w = opcodeByte i)
    (harg : argOf w = argByte i) : decodeCommand w = i := by
  rw [decodeCommand, hop, harg]
  cases i with
  | nop | clear | push | decode | read => rfl
  | reserved op arg =>
    have hle : 5#8 ≤ op := of_decide_eq_true hwf
    have hne : ∀ b : Byte, b < 5#8 → op ≠ b := fun b hb heq => by bv_omega
    simp [opcodeByte, argByte, hne]

/-- A well-formed command is read back from its word (R70, R72). -/
theorem decodeCommand_encodeCommand {i : Instr} (hwf : i.wellFormed = true) : decodeCommand (encodeCommand i) = i :=
  decodeCommand_eq_of_fields hwf (opOf_append _ _) (argOf_append _ _)

end Sys2Proof.Proofs
end

section
/-! The register read space (20_memory.md R57), one lemma per kind of address that READ can name. -/

namespace Sys2Proof.Proofs

open Sys2Proof.Machine

/-- READ answers the state with its response alone changed (R150). -/
theorem exec_read_of_eq {s : State} {a : Byte} {r : Word} (h : readRegister a s = r) :
    exec (.read a) s = .next { s with rsp := some r } := by
  rw [exec_read, h, respond]

/-- Addresses 0x00 to 0x0D. -/
theorem readRegister_field (s : State) (k : Fin 14) : readRegister (BitVec.ofNat 8 k.val) s = s.field[k] := by
  have ha : (BitVec.ofNat 8 k.val).toNat = k.val := by rw [BitVec.toNat_ofNat]; omega
  simp [readRegister, ha]

/-- Addresses 0x16 and above hold the bytes of FBUF and nothing else. -/
theorem readRegister_above (s : State) {a : Byte} (ha : 0x16 ≤ a.toNat) :
    readRegister a s = if 0x20 ≤ a ∧ a ≤ 0x3F then (memRead s.fbuf (a.toNat - 0x20)).zeroExtend 16 else 0x0000 := by
  have hfield : ¬ a.toNat < 14 := by omega
  have hne : ∀ b : Byte, b.toNat < 0x16 → a ≠ b := fun b hb heq => by rw [heq] at ha; omega
  simp [readRegister, hfield, hne]

/-- Addresses 0x20 to 0x3F. -/
theorem readRegister_fbuf (s : State) {i : Nat} (hi : i < 32) :
    readRegister (BitVec.ofNat 8 (0x20 + i)) s = BitVec.ofNat 16 (memRead s.fbuf i).toNat := by
  have ha : (BitVec.ofNat 8 (0x20 + i)).toNat = 0x20 + i := by rw [BitVec.toNat_ofNat]; omega
  have hrange : 0x20 ≤ BitVec.ofNat 8 (0x20 + i) ∧ BitVec.ofNat 8 (0x20 + i) ≤ 0x3F := by bv_omega
  rw [readRegister_above s (by omega), if_pos hrange, ha, Nat.add_sub_cancel_left, BitVec.ofNat_toNat]

theorem readRegister_fbuf_toNat (s : State) {i : Nat} (hi : i < 32) :
    (readRegister (BitVec.ofNat 8 (0x20 + i)) s).toNat = (memRead s.fbuf i).toNat := by
  have hb := (memRead s.fbuf i).isLt
  rw [readRegister_fbuf s hi, BitVec.toNat_ofNat]
  omega

/-- Address 0x15. -/
theorem readRegister_fcnt (s : State) : readRegister 0x15 s = BitVec.ofNat 16 s.fcnt.toNat :=
  (BitVec.ofNat_toNat 16 s.fcnt).symm

/-- The reserved addresses (R151). -/
theorem readRegister_reserved (s : State) {a : Byte}
    (ha : a = 0x0E ∨ a = 0x0F ∨ (0x16 ≤ a.toNat ∧ a.toNat ≤ 0x1F) ∨ 0x40 ≤ a.toNat) : readRegister a s = 0x0000 := by
  rcases ha with rfl | rfl | hrange
  · rfl
  · rfl
  · have hout : ¬ (0x20 ≤ a ∧ a ≤ 0x3F) := by bv_omega
    rw [readRegister_above s (by omega), if_neg hout]

end Sys2Proof.Proofs
end

section
/-! A DECODE of a valid frame (41_decode.md R115 to R118), with the tests stated as arithmetic on the bytes. -/

namespace Sys2Proof.Proofs

open Sys2Proof.Machine

theorem frameLength_toNat (m : Memory) : (frameLength m).toNat = pairNat m 2 := pairAt_toNat m 2

theorem receivedChecksum_toNat (m : Memory) : (receivedChecksum m).toNat = pairNat m 30 := pairAt_toNat m 30

/-- Of a length that passes, the 16-bit sum does not wrap (R122). -/
theorem computedChecksum_toNat {m : Memory} {n : Nat} (hn : n ≤ 28) : (computedChecksum m n).toNat = exactSum m (n + 2) := by
  have hle := exactSum_le m (n + 2)
  rw [computedChecksum, accumulate_toNat]
  exact Nat.mod_eq_of_lt (by omega)

/-- When every test passes DECODE commits the whole result (R118). -/
theorem decodeFrame_eq_success {m : Memory} {c : BitVec 6} (hcount : c.toNat = 32) (h0 : memRead m 0 = 0x42)
    (h1 : memRead m 1 = 0x4D) (hlen : pairNat m 2 ≤ 28) (hsum : exactSum m (pairNat m 2 + 2) = pairNat m 30) :
    decodeFrame m c = success m := by
  have hstart : startMatches m = true := (startMatches_iff m).mpr ⟨h0, h1⟩
  have hlen' : (frameLength m).toNat ≤ 28 := (frameLength_toNat m).trans_le hlen
  have hsum' : computedChecksum m (frameLength m).toNat = receivedChecksum m := by
    apply BitVec.eq_of_toNat_eq
    rw [computedChecksum_toNat hlen', frameLength_toNat, receivedChecksum_toNat, hsum]
  simp [decodeFrame, decodePayload, Config.frameBytes, Config.maxFlen, hcount, hstart, hlen', hsum']

/-- A field that the frame's length covers is the join of its two bytes (R115). -/
theorem success_field_toNat {m : Memory} {k : Fin 14} (hk : k.val < pairNat m 2 / 2) :
    (success m).field[k].toNat = pairNat m (4 + 2 * k.val) := by
  have hfield : (success m).field[k] = fieldPair m k.val :=
    (extractFields_get m _ k).trans (if_pos (by rwa [frameLength_toNat]))
  rw [hfield]
  exact pairAt_toNat m _

end Sys2Proof.Proofs
end

section
/-! What a command does when it is given again, and with other events to come (20_memory.md R58, R61). -/

namespace Sys2Proof.Proofs

open Sys2Proof.Machine

/-- Given again, a command but PUSH writes the values it wrote: none depends on what the first one changed. -/
theorem exec_again {i : Instr} {s t : State} (hpush : ∀ b, i ≠ .push b) (h : CommandEffect s i t) : exec i t = .next t := by
  cases h with
  | nop arg => exact exec_nop _ arg
  | clear arg => exact exec_clear _ arg
  | pushRoom b | pushFull b => exact absurd rfl (hpush b)
  | decode arg => exact exec_decode _ arg
  | read a => exact exec_read _ a
  | reserved op arg => exact exec_reserved _ op arg

/-- No command writes the events to come. -/
theorem port_of_commandEffect {i : Instr} {s t : State} (h : CommandEffect s i t) : t.port = s.port := by
  cases h with
  | nop | clear | pushRoom | pushFull | decode | read | reserved => rfl

/-- No command reads the events to come, nor does the guard of PUSH. -/
theorem exec_withPort {i : Instr} {s t : State} (p : List HostEvent) (h : CommandEffect s i t) :
    exec i { s with port := p } = .next { t with port := p } := by
  cases h with
  | nop arg => exact exec_nop _ arg
  | clear arg => exact exec_clear _ arg
  | pushRoom b hroom => exact exec_push_room _ b hroom
  | pushFull b hfull => exact exec_push_full _ b hfull
  | decode arg => exact exec_decode _ arg
  | read a => exact exec_read _ a
  | reserved op arg => exact exec_reserved _ op arg

end Sys2Proof.Proofs
end

section
/-! The statements of 20_memory.md. -/

namespace Sys2Proof.Proofs

open Sys2Proof.Machine

/-- Settles O32: READ's word from its two halves, then one lemma of the read space per kind of address. -/
theorem readReturnsTheRegisterMap : Obligations.ReadReturnsTheRegisterMap := by
  refine ⟨fun w hw => ?_, fun s => ⟨fun k => ?_, ?_, ?_, ?_, ?_, ?_, ?_, fun i => ?_, fun a ha => ?_⟩⟩
  · exact decodeCommand_eq_of_fields rfl (BitVec.eq_of_toNat_eq ((opOf_toNat w).trans hw)) (argOf_eq_ofNat w)
  · exact exec_read_of_eq (readRegister_field s k)
  · exact ⟨statusWord s.status, statusWord_toNat s.status, exec_read s 0x10⟩
  · exact exec_read s 0x11
  · exact exec_read s 0x12
  · exact exec_read s 0x13
  · exact exec_read s 0x14
  · exact exec_read_of_eq (readRegister_fcnt s)
  · exact exec_read_of_eq (readRegister_fbuf s i.isLt)
  · exact exec_read_of_eq (readRegister_reserved s ha)

/-- Settles O33: a valid frame's field is the join of its two bytes, and DECODE leaves the bytes as they are. -/
theorem fieldViewAgreesWithByteView : Obligations.FieldViewAgreesWithByteView := by
  intro arg s k hcount h0 h1 hlen hsum hk
  have hhigh : 0x24 + 2 * k.val = 0x20 + (4 + 2 * k.val) := by omega
  have hlow : 0x25 + 2 * k.val = 0x20 + (4 + 2 * k.val + 1) := by omega
  refine ⟨_, _, _, _, exec_decode s arg, exec_read _ _, exec_read _ _, exec_read _ _, ?_⟩
  rw [hhigh, hlow, readRegister_field, readRegister_fbuf_toNat _ (by omega), readRegister_fbuf_toNat _ (by omega),
    decodeFrame_eq_success hcount h0 h1 hlen hsum]
  simp only [respondStatus_field, respondStatus_fbuf, commit_field, commit_fbuf]
  exact success_field_toNat hk

/-- Settles O41: what a command but PUSH leaves, it leaves again. -/
theorem commandsButPushAreIdempotent : Obligations.CommandsButPushAreIdempotent := by
  intro i s hpush
  obtain ⟨t, heffect, hexec⟩ := exists_commandEffect i s
  exact ⟨t, hexec, exec_again hpush heffect⟩

/-- Settles O8: a step decodes the next word, and the word of a well-formed command decodes to it. -/
theorem stepExecutesTheNextCommand : Obligations.StepExecutesTheNextCommand := by
  intro s w rest hport
  refine ⟨step_command s hport, fun i hwf hw => ?_⟩
  rw [step_command s hport, hw, decodeCommand_encodeCommand hwf]

/-- Settles O14: commands neither write nor read the events to come. -/
theorem commandsIgnoreLaterEvents : Obligations.CommandsIgnoreLaterEvents := by
  intro i s p
  obtain ⟨t, heffect, hexec⟩ := exists_commandEffect i s
  exact ⟨t, hexec, port_of_commandEffect heffect, exec_withPort p heffect⟩

end Sys2Proof.Proofs
end

section
/-! The decoder on every word (30_encoding.md R70, R72): the command it yields has the word's two halves, and OP alone selects
its row. -/

namespace Sys2Proof.Proofs

/-- OP as the number that the opcode map speaks of. -/
theorem opOf_eq_iff (w : Word) (op : Byte) : opOf w = op ↔ w.toNat / 256 = op.toNat := by
  rw [← opOf_toNat, BitVec.toNat_inj]

theorem argOf_toNat (w : Word) : (argOf w).toNat = w.toNat % 256 := BitVec.toNat_ofNat _ _

/-- The decoder drops neither half of the word, and answers `reserved` only for an OP that no other row has. -/
theorem decodeCommand_fields (w : Word) : (decodeCommand w).wellFormed = true ∧
    opcodeByte (decodeCommand w) = opOf w ∧ argByte (decodeCommand w) = argOf w := by
  rw [decodeCommand]
  split_ifs with h0 h1 h2 h3 h4
  · exact ⟨rfl, h0.symm, rfl⟩
  · exact ⟨rfl, h1.symm, rfl⟩
  · exact ⟨rfl, h2.symm, rfl⟩
  · exact ⟨rfl, h3.symm, rfl⟩
  · exact ⟨rfl, h4.symm, rfl⟩
  · have hle : 5#8 ≤ opOf w := by bv_omega
    exact ⟨decide_eq_true hle, rfl, rfl⟩

/-- No bit of the word is lost (R72). -/
theorem encodeCommand_decodeCommand (w : Word) : encodeCommand (decodeCommand w) = w := by
  obtain ⟨-, hop, harg⟩ := decodeCommand_fields w
  rw [encodeCommand, hop, harg, append_opOf_argOf]

/-- The opcode map of R72: the row that an OP selects. -/
def rowOfOp (op : Byte) : Mnemonic :=
  if op = 0x00 then .nop else if op = 0x01 then .clear else if op = 0x02 then .push
  else if op = 0x03 then .decode else if op = 0x04 then .read else .reserved

theorem mnemonicOf_decodeCommand (w : Word) : mnemonicOf (decodeCommand w) = rowOfOp (opOf w) := by
  rw [decodeCommand, rowOfOp]
  split_ifs <;> rfl

/-- The mask of the first five rows keeps OP and clears ARG. -/
theorem and_opMask (w : Word) : w &&& 0xFF00 = opOf w ++ 0#8 := by
  have hmask : (0xFF00 : Word) = BitVec.allOnes 8 ++ 0#8 := by decide
  rw [← append_opOf_argOf w, hmask, BitVec.and_append, BitVec.and_allOnes, BitVec.and_zero, opOf_append]

/-- A row of the table that fixes OP matches the words with that OP (R81). -/
theorem and_opMask_eq_iff (w : Word) (op : Byte) : w &&& 0xFF00 = op ++ 0#8 ↔ opOf w = op := by
  rw [and_opMask]
  constructor
  · intro h
    rw [← opOf_append (opOf w) 0#8, h, opOf_append]
  · intro h
    rw [h]

theorem firstMatch_cons_op (w : Word) (m : Mnemonic) (op : Byte) (rows : List OpcodeRow) :
    firstMatch w (⟨m, op ++ 0#8, 0xFF00⟩ :: rows) = if opOf w = op then some m else firstMatch w rows :=
  if_congr (and_opMask_eq_iff w op) rfl rfl

/-- The rows but the last fix OP, and the last matches every word, so the table is the opcode map (R81). -/
theorem firstMatch_opcodeTable (w : Word) : firstMatch w opcodeTable = some (rowOfOp (opOf w)) := by
  have htable : opcodeTable = [⟨.nop, 0x00#8 ++ 0#8, 0xFF00⟩, ⟨.clear, 0x01#8 ++ 0#8, 0xFF00⟩,
    ⟨.push, 0x02#8 ++ 0#8, 0xFF00⟩, ⟨.decode, 0x03#8 ++ 0#8, 0xFF00⟩, ⟨.read, 0x04#8 ++ 0#8, 0xFF00⟩,
    ⟨.reserved, 0, 0⟩] := by decide
  have hlast : firstMatch w [⟨.reserved, 0, 0⟩] = some .reserved := if_pos BitVec.and_zero
  simp only [htable, firstMatch_cons_op, hlast, rowOfOp, apply_ite some]
  rfl

end Sys2Proof.Proofs
end

section
/-! The words of the assembler (30_encoding.md R79, R80): an operand byte behind its OP as a number, and the expansion of the
pseudo-instructions. -/

namespace Sys2Proof.Proofs

open Sys2Proof.Machine

/-- OP in the high byte and an operand in the low one, as one number (R70). -/
theorem append_ofNat (op : Byte) {n : Nat} (hn : n < 256) :
    (op ++ BitVec.ofNat 8 n : Word) = BitVec.ofNat 16 (256 * op.toNat + n) := by
  have hop := op.isLt
  have hlow : (BitVec.ofNat 8 n).toNat = n := by rw [BitVec.toNat_ofNat]; exact Nat.mod_eq_of_lt hn
  apply BitVec.eq_of_toNat_eq
  rw [BitVec.toNat_append, ← Nat.shiftLeft_add_eq_or_of_lt (BitVec.isLt _), hlow, Nat.shiftLeft_eq, BitVec.toNat_ofNat]
  omega

/-- The same word as R79 writes it: the operand or-ed into the word with ARG 0. -/
theorem append_ofNat_eq_or (op : Byte) {n : Nat} (hn : n < 256) :
    (op ++ BitVec.ofNat 8 n : Word) = (op ++ 0#8) ||| BitVec.ofNat 16 n := by
  have hlow : BitVec.ofNat 16 n = 0#8 ++ BitVec.ofNat 8 n := by
    rw [append_ofNat 0#8 hn, BitVec.toNat_zero, Nat.mul_zero, Nat.zero_add]
  rw [hlow, BitVec.or_append, BitVec.or_zero, BitVec.zero_or]

/-- The words of a line whose commands are known. -/
theorem assembleLine_eq_of_commands {l : AsmLine} {is : List Instr} (h : lineCommands l = some is) :
    assembleLine l = some (is.map encodeCommand) := by
  rw [assembleLine, h, Option.map_some]

theorem byteOperand_of_lt {n : Nat} (hn : n < 256) : byteOperand n = some (BitVec.ofNat 8 n) := if_pos hn

/-- A line of one command with one number as its operand. -/
theorem assembleLine_of_byteOperand {l : AsmLine} {c : Byte → Instr} {op : Byte} {n : Nat}
    (hl : lineCommands l = (byteOperand n).map fun x => [c x]) (hc : ∀ x, encodeCommand (c x) = op ++ x) :
    assembleLine l = if n < 256 then some [(op ++ 0#8) ||| BitVec.ofNat 16 n] else none := by
  by_cases hn : n < 256
  · rw [byteOperand_of_lt hn, Option.map_some] at hl
    rw [assembleLine_eq_of_commands hl, if_pos hn, List.map_singleton, hc, append_ofNat_eq_or op hn]
  · rw [assembleLine, hl, byteOperand, if_neg hn, if_neg hn, Option.map_none, Option.map_none]

/-- PUSH's word, its operand below 256. -/
theorem encodeCommand_push {n : Nat} (hn : n < 256) :
    encodeCommand (.push (BitVec.ofNat 8 n)) = 0x0200 ||| BitVec.ofNat 16 n := append_ofNat_eq_or 0x02 hn

/-- READ of a register whose address is `n` (R57). -/
theorem assembleLine_read_register {r : RegName} {n : Nat} (hn : n < 256) (hr : registerAddress r = BitVec.ofNat 8 n) :
    assembleLine (.read (.register r)) = some [BitVec.ofNat 16 (0x0400 + n)] := by
  have hcommands : lineCommands (.read (.register r)) = some [.read (BitVec.ofNat 8 n)] := by rw [lineCommands, hr]
  rw [assembleLine_eq_of_commands hcommands, List.map_singleton]
  exact congrArg (fun w => some [w]) (append_ofNat 0x04 hn)

/-- Operands that are all bytes are accepted, each as it stands (R79). -/
theorem byteOperands_of_forall_lt {ns : List Nat} (h : ∀ n ∈ ns, n < 256) :
    byteOperands ns = some (ns.map (BitVec.ofNat 8)) := by
  induction ns with
  | nil => rfl
  | cons n ns ih =>
    rw [byteOperands, byteOperand_of_lt (h n List.mem_cons_self), ih fun m hm => h m (List.mem_cons_of_mem n hm), List.map_cons]

/-- The words of LOADFRAME's commands (R80). -/
theorem encode_loadFrameCommands {ns : List Nat} (h : ∀ n ∈ ns, n < 256) :
    (loadFrameCommands (ns.map (BitVec.ofNat 8))).map encodeCommand =
      0x0100 :: ns.map fun n => 0x0200 ||| BitVec.ofNat 16 n := by
  have hclear : encodeCommand (.clear 0) = 0x0100 := by decide
  have hpush : ns.map (fun n => encodeCommand (.push (BitVec.ofNat 8 n))) = ns.map fun n => 0x0200 ||| BitVec.ofNat 16 n :=
    List.map_congr_left fun n hn => encodeCommand_push (h n hn)
  rw [← hpush, ← hclear, loadFrameCommands, List.map_cons, List.map_map, List.map_map]
  rfl

/-- CHECKFRAME's words are LOADFRAME's and DECODE's (R80). -/
theorem encode_checkFrameCommands (bs : List Byte) :
    (checkFrameCommands bs).map encodeCommand = (loadFrameCommands bs).map encodeCommand ++ [0x0300] := by
  rw [checkFrameCommands, List.map_append]
  rfl

end Sys2Proof.Proofs
end

section
/-! Runs of PUSHes (40_buffer.md R92, R93): while each finds room, the bytes come to stand behind those already counted. -/

namespace Sys2Proof.Proofs

open Sys2Proof.Machine

/-- A run whose first event is the word of a well-formed command goes on from what that command leaves. -/
theorem run_commandEvents_cons {s t : State} (k : Nat) {i : Instr} {is : List Instr} {rest : List HostEvent}
    (hwf : i.wellFormed = true) (hport : s.port = commandEvents (i :: is) ++ rest)
    (hexec : exec i { s with port := commandEvents is ++ rest } = .next t) : run (k + 1) s = run k t :=
  run_command k hport (by rw [decodeCommand_encodeCommand hwf]; exact hexec)

/-- `t` is `s` with the bytes `bs` appended in their order, and nothing else changed but the response and the port. -/
structure BytesPushed (s : State) (bs : List Byte) (t : State) : Prop where
  counted : t.fcnt.toNat = s.fcnt.toNat + bs.length
  stored : ∀ i, ∀ h : i < bs.length, memRead t.fbuf (s.fcnt.toNat + i) = bs[i]
  kept : ∀ a, a < s.fcnt.toNat ∨ s.fcnt.toNat + bs.length ≤ a → memRead t.fbuf a = memRead s.fbuf a
  status : t.status = s.status
  results : sameResults s t

theorem bytesPushed_nil (s : State) : BytesPushed s [] s where
  counted := rfl
  stored i h := absurd h (Nat.not_lt_zero i)
  kept _ _ := rfl
  status := rfl
  results := ⟨rfl, rfl, rfl, rfl, rfl, rfl⟩

/-- A byte appended first stands before the bytes appended after it. -/
theorem bytesPushed_cons {s t : State} {b : Byte} {bs : List Byte} (p : List HostEvent) (hroom : s.fcnt.toNat < 32)
    (h : BytesPushed (respond 0x0000 (appendByte b { s with port := p })) bs t) : BytesPushed s (b :: bs) t := by
  obtain ⟨hcounted, hstored, hkept, hstatus, hresults⟩ := h
  have hnext : (s.fcnt + 1).toNat = s.fcnt.toNat + 1 := by bv_omega
  simp only [respond_fcnt, appendByte_fcnt, respond_fbuf, appendByte_fbuf, hnext] at hcounted hstored hkept
  refine ⟨?_, fun i hi => ?_, fun a ha => ?_, hstatus, hresults⟩
  · rw [hcounted, List.length_cons]
    omega
  · cases i with
    | zero =>
      rw [Nat.add_zero, hkept _ (.inl (Nat.lt_succ_self _)), memRead_memWrite_same, List.getElem_cons_zero]
    | succ i =>
      have hi' : i < bs.length := Nat.lt_of_succ_lt_succ hi
      rw [List.getElem_cons_succ, ← hstored i hi', Nat.add_assoc, Nat.add_comm 1 i]
  · rw [List.length_cons] at ha
    rw [hkept a (by omega), memRead_memWrite_other _ _ (by omega)]

/-- Bytes that the buffer has room for are all appended (R93), whatever the run does after them. -/
theorem run_pushes (k : Nat) (bs : List Byte) (rest : List HostEvent) {s : State} (hroom : s.fcnt.toNat + bs.length ≤ 32)
    (hport : s.port = commandEvents (bs.map .push) ++ rest) :
    ∃ t, run (bs.length + k) s = run k t ∧ BytesPushed s bs t ∧ t.port = rest := by
  induction bs generalizing s with
  | nil => exact ⟨s, by rw [List.length_nil, Nat.zero_add], bytesPushed_nil s, hport⟩
  | cons b bs ih =>
    rw [List.length_cons] at hroom
    have hlt : s.fcnt.toNat < 32 := by omega
    have hexec := exec_push_room { s with port := commandEvents (bs.map .push) ++ rest } b hlt
    have hcount : (s.fcnt + 1).toNat = s.fcnt.toNat + 1 := by bv_omega
    obtain ⟨t, hrun, hpushed, hrest⟩ := ih (s := respond 0x0000 (appendByte b { s with port := _ }))
      (by rw [respond_fcnt, appendByte_fcnt, hcount]; omega) rfl
    refine ⟨t, ?_, bytesPushed_cons _ hlt hpushed, hrest⟩
    rw [List.length_cons, Nat.add_right_comm, run_commandEvents_cons _ rfl hport hexec, hrun]

end Sys2Proof.Proofs
end

section
/-! DECODE against the source's decode (41_decode.md R111 to R118), which reads the same bytes from a list and counts in exact
integers. -/

namespace Sys2Proof.Proofs

open Sys2Proof.Machine

/-- FBUF holds the bytes of a list from offset 0 on, and 0 behind them. -/
def HoldsBytes (m : Memory) (bs : List Byte) : Prop := ∀ a, memRead m a = bs.getD a 0

theorem pairNat_of_holdsBytes {m : Memory} {bs : List Byte} (h : HoldsBytes m bs) (off : Nat) :
    pairNat m off = joinNat bs off := by
  rw [pairNat, joinNat, h off, h (off + 1)]

theorem exactSum_of_holdsBytes {m : Memory} {bs : List Byte} (h : HoldsBytes m bs) (n : Nat) :
    exactSum m n = ((bs.take n).map BitVec.toNat).sum := by
  induction n with
  | zero => rfl
  | succ n ih =>
    rw [exactSum_succ, ih, h n, List.take_add_one, List.map_append, List.sum_append, List.getD_eq_getElem?_getD]
    cases bs[n]? with
    | none => rfl
    | some b => simp

theorem startMatches_eq_false_of_holdsBytes {m : Memory} {bs : List Byte} (h : HoldsBytes m bs) :
    startMatches m = false ↔ bs.getD 0 0 ≠ 0x42 ∨ bs.getD 1 0 ≠ 0x4D := by
  rw [← Bool.not_eq_true, startMatches_iff, h 0, h 1, not_and_or]

/-- `combine` puts its operands side by side (R110). -/
theorem combine_eq_append (high low : Byte) : combine high low = high ++ low := by
  apply BitVec.eq_of_toNat_eq
  rw [combine_toNat, BitVec.toNat_append, ← Nat.shiftLeft_add_eq_or_of_lt low.isLt, Nat.shiftLeft_eq, Nat.mul_comm]

/-- GOT carries the two start bytes (R171). -/
theorem startPair_halves (m : Memory) :
    (startPair m).extractLsb' 8 8 = memRead m 0 ∧ (startPair m).extractLsb' 0 8 = memRead m 1 := by
  rw [startPair, pairAt, combine_eq_append]
  exact ⟨opOf_append _ _, argOf_append _ _⟩

/-- The Measurement as numbers (R115). -/
theorem extractFields_toNat (m : Memory) (flen : Nat) : (extractFields m flen).toList.map BitVec.toNat =
    (List.range 14).map fun k => if k < flen / 2 then pairNat m (4 + 2 * k) else 0 := by
  apply List.ext_getElem
  · simp
  · intro k hk _
    have hk' : k < 14 := by simpa using hk
    have hfield := extractFields_get m flen ⟨k, hk'⟩
    rw [List.getElem_map, List.getElem_map, List.getElem_range, Vector.getElem_toList]
    refine (congrArg BitVec.toNat hfield).trans ?_
    rw [apply_ite BitVec.toNat]
    exact if_congr Iff.rfl (pairAt_toNat m _) rfl

/-- A DECODE of 32 counted bytes reports what the source's decode of them answers, test by test. -/
theorem reportedResult_decode {m : Memory} {bs : List Byte} (h : HoldsBytes m bs) {c : BitVec 6} (hc : c.toNat = 32)
    (s : State) : reportedResult (respondStatus (commit (decodeFrame m c) s)) = some (sourceDecode bs) := by
  have hlen : (frameLength m).toNat = joinNat bs 2 := (frameLength_toNat m).trans (pairNat_of_holdsBytes h 2)
  have hckrx : (receivedChecksum m).toNat = joinNat bs 30 :=
    (receivedChecksum_toNat m).trans (pairNat_of_holdsBytes h 30)
  have hstart := startMatches_eq_false_of_holdsBytes h
  have hsource : startMatches m = true → ¬ (bs.getD 0 0 ≠ 0x42 ∨ bs.getD 1 0 ≠ 0x4D) := fun hgood hbad => by
    simp [hstart.mpr hbad] at hgood
  rcases decodeFrame_cases m c with ⟨hshort, -⟩ | ⟨-, hbad, hr⟩ | ⟨-, hgood, hlong, hr⟩ | ⟨-, hgood, hfits, hr⟩
  · exact absurd hc (Nat.ne_of_lt hshort)
  · obtain ⟨hgot0, hgot1⟩ := startPair_halves m
    rw [hr, sourceDecode, if_pos (hstart.mp hbad), ← h 0, ← h 1, ← hgot0, ← hgot1]
    rfl
  · rw [hr, sourceDecode, if_neg (hsource hgood), ← hlen, if_pos hlong]
    rfl
  · have hcsum : (computedChecksum m (frameLength m).toNat).toNat =
        ((bs.take ((frameLength m).toNat + 2)).map BitVec.toNat).sum :=
      (computedChecksum_toNat hfits).trans (exactSum_of_holdsBytes h _)
    rw [hr, sourceDecode, if_neg (hsource hgood), ← hlen, if_neg (Nat.not_lt.mpr hfits), ← hcsum, ← hckrx]
    rcases decodePayload_cases m with ⟨hsum, hp⟩ | ⟨hsum, hp⟩
    · rw [hp, if_pos (mt BitVec.eq_of_toNat_eq hsum)]
      rfl
    · have hfields : (extractFields m (frameLength m).toNat).toList.map BitVec.toNat = (List.range 14).map fun k =>
          if k < (frameLength m).toNat / 2 then joinNat bs (4 + 2 * k) else 0 := by
        simp only [extractFields_toNat, pairNat_of_holdsBytes h]
      rw [hp, hsum, if_neg (not_not.mpr rfl), ← hfields]
      rfl

end Sys2Proof.Proofs
end

section
/-! A run of CHECKFRAME's commands (30_encoding.md R80): CLEAR, 32 PUSHes, DECODE. -/

namespace Sys2Proof.Proofs

open Sys2Proof.Machine

theorem commandEvents_append (is js : List Instr) : commandEvents (is ++ js) = commandEvents is ++ commandEvents js :=
  List.map_append

/-- Bytes pushed into an empty buffer are what it holds. -/
theorem holdsBytes_of_bytesPushed {s t : State} {bs : List Byte} (hempty : s.fbuf = []) (hcount : s.fcnt = 0)
    (h : BytesPushed s bs t) : HoldsBytes t.fbuf bs := by
  intro a
  have hzero : s.fcnt.toNat = 0 := by rw [hcount]; rfl
  by_cases ha : a < bs.length
  · have hstored := h.stored a ha
    rw [hzero, Nat.zero_add] at hstored
    rw [hstored, List.getD_eq_getElem _ _ ha]
  · rw [h.kept a (by omega), hempty, memRead_nil, List.getD_eq_default _ _ (Nat.not_lt.mp ha)]

/-- LOADFRAME from any state: afterwards FBUF holds the bytes, FCNT counts them and neither sticky flag is set. -/
theorem run_loadFrame (k : Nat) {s : State} {bs : List Byte} {rest : List HostEvent} (hbs : bs.length ≤ 32)
    (hport : s.port = commandEvents (loadFrameCommands bs) ++ rest) :
    ∃ t, run (bs.length + k + 1) s = run k t ∧ HoldsBytes t.fbuf bs ∧ t.fcnt.toNat = bs.length ∧
      t.status.ovr = false ∧ t.status.ill = false ∧ t.port = rest := by
  have hclear := run_commandEvents_cons (bs.length + k) rfl hport (exec_clear _ 0)
  obtain ⟨t, hpush, hpushed, hrest⟩ := run_pushes k bs rest
    (s := respond 0x0000 (clearSticky (emptyBuffer { s with port := commandEvents (bs.map .push) ++ rest })))
    ((Nat.zero_add _).trans_le hbs) rfl
  refine ⟨t, hclear.trans hpush, holdsBytes_of_bytesPushed rfl rfl hpushed, ?_, ?_, ?_, hrest⟩
  · exact hpushed.counted.trans (Nat.zero_add _)
  · rw [hpushed.status]; rfl
  · rw [hpushed.status]; rfl

end Sys2Proof.Proofs
end

section
/-! The statements of 30_encoding.md. -/

namespace Sys2Proof.Proofs

open Sys2Proof.Machine

/-- Settles O1: OP and ARG are read back from the word, and they select the command. -/
theorem decodeOfEncodeIsIdentity : Obligations.DecodeOfEncodeIsIdentity := by
  intro i hwf
  exact decodeCommand_encodeCommand hwf

/-- Settles O2, by what the decoder takes from each word. -/
theorem encodeOfDecodeIsIdentity : Obligations.EncodeOfDecodeIsIdentity := by
  intro w
  obtain ⟨hwf, -, -⟩ := decodeCommand_fields w
  exact ⟨hwf, encodeCommand_decodeCommand w⟩

/-- Settles O3: the decoder's row is that of OP, and OP is the word divided by 256. -/
theorem opcodeMapSelectsCommand : Obligations.OpcodeMapSelectsCommand := by
  intro w
  obtain ⟨-, -, harg⟩ := decodeCommand_fields w
  refine ⟨(congrArg BitVec.toNat harg).trans (argOf_toNat w), ?_⟩
  rw [mnemonicOf_decodeCommand, rowOfOp]
  simp only [opOf_eq_iff]
  rfl

/-- Settles O4: the table and the decoder both follow the opcode map. -/
theorem tableFirstMatchAgreesWithDecoder : Obligations.TableFirstMatchAgreesWithDecoder := by
  intro w
  rw [firstMatch_opcodeTable, mnemonicOf_decodeCommand]

/-- Settles O6: each kind of operand by its own lemma, a register by its address. -/
theorem assemblerEncodesEachMnemonic : Obligations.AssemblerEncodesEachMnemonic := by
  refine ⟨by decide, by decide, by decide, fun b => ?_, fun a => ?_, fun k => ?_, fun i => ?_, fun n => rfl,
    by decide, by decide, by decide, by decide, by decide, by decide⟩
  · exact assembleLine_of_byteOperand (c := .push) (op := 0x02) rfl fun _ => rfl
  · exact assembleLine_of_byteOperand (c := .read) (op := 0x04) rfl fun _ => rfl
  · have hk : k.val < 256 := by omega
    exact assembleLine_read_register hk rfl
  · have hi : 0x20 + i.val < 256 := by omega
    rw [assembleLine_read_register hi rfl, ← Nat.add_assoc]

/-- Settles O7: 32 byte operands are all accepted, and their commands' words are the expansion. -/
theorem pseudoInstructionsExpand : Obligations.PseudoInstructionsExpand := by
  intro ns
  refine ⟨fun hlength hbytes => ?_, fun hlength => ?_⟩
  · have hoperands : frameOperands ns = some (ns.map (BitVec.ofNat 8)) :=
      (if_pos hlength).trans (byteOperands_of_forall_lt hbytes)
    rw [← encode_loadFrameCommands hbytes, ← encode_checkFrameCommands]
    exact ⟨assembleLine_eq_of_commands (by rw [lineCommands, hoperands, Option.map_some]),
      assembleLine_eq_of_commands (by rw [lineCommands, hoperands, Option.map_some])⟩
  · have hoperands : frameOperands ns = none := if_neg hlength
    simp [assembleLine, lineCommands, hoperands]

/-- Settles O34: such a word has the two halves of a well-formed reserved command. -/
theorem reservedOpcodesSetIllOnly : Obligations.ReservedOpcodesSetIllOnly := by
  refine ⟨fun w hw => ?_, fun op arg s => exec_reserved s op arg⟩
  have hle : 0x05#8 ≤ opOf w := by rw [BitVec.le_def, opOf_toNat]; exact hw
  exact ⟨opOf w, argOf w, decodeCommand_eq_of_fields (decide_eq_true hle) rfl rfl⟩

/-- Settles O48: LOADFRAME puts the bytes into FBUF, and the DECODE behind it reports what the source's decode answers. -/
theorem checkFrameRefinesSourceDecode : Obligations.CheckFrameRefinesSourceDecode := by
  intro s bs rest hbs hport
  rw [checkFrameCommands, commandEvents_append, List.append_assoc] at hport
  obtain ⟨t, hload, hholds, hcount, hovr, hill, hrest⟩ := run_loadFrame 1 (Nat.le_of_eq hbs) hport
  have hdecode := run_commandEvents_cons 0 rfl hrest (exec_decode _ 0)
  rw [hbs] at hload hcount
  exact ⟨_, hload.trans hdecode, reportedResult_decode hholds hcount _, rfl, hovr, hill, rfl⟩

/-- Settles O5: closed words, decoded by evaluation. -/
theorem wordsOfTheSpecDecode : Obligations.WordsOfTheSpecDecode := by
  unfold Obligations.WordsOfTheSpecDecode
  decide

/-- Settles O12: the last act of each effect is its response. -/
theorem responseWordOfEachCommand : Obligations.ResponseWordOfEachCommand := by
  intro i s
  obtain ⟨t, heffect, hexec⟩ := exists_commandEffect i s
  refine ⟨t, hexec, ?_⟩
  cases heffect with
  | nop | clear | pushRoom | pushFull | decode | read | reserved => rfl

/-- Settles O19: the effects of the three commands do not mention ARG. -/
theorem argIsIgnored : Obligations.ArgIsIgnored := by
  refine ⟨by decide, fun arg s => ⟨?_, ?_, ?_⟩⟩
  · rw [exec_nop, exec_nop]
  · rw [exec_clear, exec_clear]
  · rw [exec_decode, exec_decode]

/-- Settles O36: a reserved opcode raises ILL and responds. -/
theorem frameOfReservedOpcodes : Obligations.FrameOfReservedOpcodes := by
  intro op arg s
  have hexec := exec_reserved s op arg
  exact ⟨_, hexec, rfl, fun _ => rfl, rfl, rfl, sameResults_of_exec (by simp) hexec, rfl⟩

end Sys2Proof.Proofs
end

section
/-! What the response word leaves as it was (30_encoding.md R71). -/

namespace Sys2Proof.Proofs

open Sys2Proof.Machine

/-- Driving a response writes no register that a command reads or keeps. -/
theorem respond_frame (w : Word) (s : State) : sameInputs s (respond w s) ∧ sameResults s (respond w s) :=
  ⟨⟨fun _ => rfl, rfl, rfl, rfl, rfl⟩, rfl, rfl, rfl, rfl, rfl, rfl⟩

end Sys2Proof.Proofs
end

section
/-! The statements of 40_buffer.md. -/

namespace Sys2Proof.Proofs

open Sys2Proof.Machine

/-- Settles O17: one clause per guard of PUSH, the buffer by read after write. -/
theorem pushAppendsOrOverruns : Obligations.PushAppendsOrOverruns := by
  refine ⟨fun w hw => ?_, fun b s => ⟨fun hroom => ?_, fun hfull => ?_⟩⟩
  · exact decodeCommand_eq_of_fields rfl ((opOf_eq_iff w _).mpr hw) (argOf_eq_ofNat w)
  · have hexec := exec_push_room s b hroom
    have hcount : (s.fcnt + 1).toNat = s.fcnt.toNat + 1 := by bv_omega
    exact ⟨_, hexec, memRead_memWrite_same _ _ b, fun _ ha => memRead_memWrite_other _ b ha, hcount, rfl, rfl,
      sameResults_of_exec (by simp) hexec, rfl⟩
  · have hexec := exec_push_full s b hfull
    exact ⟨_, hexec, fun _ => rfl, rfl, rfl, rfl, rfl, sameResults_of_exec (by simp) hexec, rfl⟩

/-- Settles O18: the run of PUSHes, counted from FCNT = 0. -/
theorem pushedBytesFillTheBufferInOrder : Obligations.PushedBytesFillTheBufferInOrder := by
  intro s bs rest hempty hlen hport
  have hzero : s.fcnt.toNat = 0 := by rw [hempty]; rfl
  obtain ⟨t, hrun, ⟨hcounted, hstored, hkept, hstatus, hresults⟩, hrest⟩ := run_pushes 0 bs rest (by omega) hport
  simp only [hzero, Nat.zero_add] at hcounted hstored hkept
  exact ⟨t, hrun, hcounted, hstored, fun a ha => hkept a (.inr ha), hstatus, hresults, hrest⟩

/-- Settles O37, from what O17 says of either guard: together they cover every FCNT. -/
theorem frameOfPush : Obligations.FrameOfPush := by
  intro b s
  obtain ⟨-, hpush⟩ := pushAppendsOrOverruns
  obtain ⟨hpushRoom, hpushFull⟩ := hpush b s
  rcases Nat.lt_or_ge s.fcnt.toNat 32 with hroom | hfull
  · obtain ⟨t, hexec, -, hkept, -, hstatus, -, hresults, hport⟩ := hpushRoom hroom
    exact ⟨t, hexec, fun a ha => hkept a (ha hroom), fun hfull => absurd hroom (Nat.not_lt.mpr hfull),
      fun _ => congrArg Status.ovr hstatus, congrArg Status.ill hstatus, hresults, hport⟩
  · obtain ⟨t, hexec, hbytes, hcount, -, hill, -, hresults, hport⟩ := hpushFull hfull
    exact ⟨t, hexec, fun a _ => hbytes a, fun _ => hcount, fun hroom => absurd hroom (Nat.not_lt.mpr hfull), hill,
      hresults, hport⟩

/-- Settles O15: OP 0x00 selects NOP, whose only act is its response. -/
theorem nopOnlyResponds : Obligations.NopOnlyResponds := by
  refine ⟨fun w hw => ?_, fun arg s => exec_nop s arg⟩
  exact decodeCommand_eq_of_fields rfl ((opOf_eq_iff w _).mpr hw) (argOf_eq_ofNat w)

/-- Settles O16: the emptied buffer lists no cell, and CLEAR is no DECODE. -/
theorem clearEmptiesBufferAndKeepsResults : Obligations.ClearEmptiesBufferAndKeepsResults := by
  refine ⟨fun w hw => ?_, fun arg s => ?_⟩
  · exact decodeCommand_eq_of_fields rfl ((opOf_eq_iff w _).mpr hw) (argOf_eq_ofNat w)
  · have hexec := exec_clear s arg
    exact ⟨_, hexec, memRead_nil, rfl, rfl, rfl, rfl, sameResults_of_exec (by simp) hexec, rfl⟩

/-- Settles O35: both commands do nothing but respond. -/
theorem frameOfNopAndRead : Obligations.FrameOfNopAndRead := by
  intro x s i hi
  rcases List.mem_pair.mp hi with rfl | rfl
  · exact ⟨_, exec_nop s x, respond_frame _ s⟩
  · exact ⟨_, exec_read s x, respond_frame _ s⟩

end Sys2Proof.Proofs
end

section
/-! What the registers hold after a DECODE (41_decode.md R119, R120): its inputs as before, and its result as numbers, one
lemma for the failures and one for OK. -/

namespace Sys2Proof.Proofs

open Sys2Proof.Machine

/-- The state that DECODE answers, from the result of the decode. -/
theorem exec_decode_of_eq {s : State} (arg : Byte) {r : DecodeResult} (h : decodeFrame s.fbuf s.fcnt = r) :
    exec (.decode arg) s = .next (respondStatus (commit r s)) := by
  rw [exec_decode, h]

/-- Committing a result and answering STATUS writes none of DECODE's inputs (R120). -/
theorem sameInputs_of_commit (r : DecodeResult) (s : State) : sameInputs s (respondStatus (commit r s)) :=
  ⟨fun _ => rfl, rfl, rfl, rfl, rfl⟩

/-- A committed failure, its diagnostics as numbers. -/
theorem holdsFailure_of_commit (s : State) (c : Code) {got flen csum ckrx : Word} {g l a r : Nat} (hgot : got.toNat = g)
    (hflen : flen.toNat = l) (hcsum : csum.toNat = a) (hckrx : ckrx.toNat = r) :
    holdsFailure (respondStatus (commit (failure c got flen csum ckrx) s)) c g l a r :=
  ⟨rfl, zeroFields_get, hgot, hflen, hcsum, hckrx⟩

theorem startPair_toNat (m : Memory) : (startPair m).toNat = pairNat m 0 := pairAt_toNat m 0

/-- Behind a valid marker GOT is the marker. -/
theorem startPair_toNat_of_startMatches {m : Memory} (hstart : startMatches m = true) : (startPair m).toNat = 0x424D :=
  congrArg BitVec.toNat ((startPair_eq_marker_iff m).mpr hstart)

/-- The sum that DECODE computes, with the length as the number it declares. -/
theorem computedChecksum_frameLength_toNat {m : Memory} (hlen : (frameLength m).toNat ≤ 28) :
    (computedChecksum m (frameLength m).toNat).toNat = exactSum m (pairNat m 2 + 2) := by
  rw [computedChecksum_toNat hlen, frameLength_toNat]

/-- The registers of the outcome OK (R118): a field that the frame's length covers is the join of its bytes, the others are 0. -/
theorem success_registers {m : Memory} (hstart : startMatches m = true) (hlen : (frameLength m).toNat ≤ 28) :
    (∀ k : Fin 14,
      (success m).field[k].toNat = if k.val < pairNat m 2 / 2 then pairNat m (4 + 2 * k.val) else 0) ∧
    (success m).got = 0x424D ∧ (success m).flen.toNat = pairNat m 2 ∧
    (success m).csum.toNat = exactSum m (pairNat m 2 + 2) ∧ (success m).ckrx.toNat = pairNat m 30 := by
  refine ⟨fun k => ?_, (startPair_eq_marker_iff m).mpr hstart, frameLength_toNat m, computedChecksum_frameLength_toNat hlen,
    receivedChecksum_toNat m⟩
  by_cases hk : k.val < pairNat m 2 / 2
  · rw [if_pos hk, success_field_toNat hk]
  · have hzero : (success m).field[k] = 0 := (extractFields_get m _ k).trans (if_neg (by rwa [frameLength_toNat]))
    rw [if_neg hk, hzero]
    rfl

end Sys2Proof.Proofs
end

section
/-! Steps 4 and 5 of DECODE (41_decode.md R116, R117): whenever they run the sum is recorded, and R122 bounds it. -/

namespace Sys2Proof.Proofs

open Sys2Proof.Machine

/-- With steps 0 to 2 passed, DECODE goes on to the sum. -/
theorem decodeFrame_eq_decodePayload {m : Memory} {c : BitVec 6} (hcount : 32 ≤ c.toNat) (hstart : startMatches m = true)
    (hlen : (frameLength m).toNat ≤ 28) : decodeFrame m c = decodePayload m := by
  rw [decodeFrame, Config.frameBytes, Config.maxFlen, if_neg (Nat.not_lt.mpr hcount), if_neg (by simp [hstart]),
    if_neg (Nat.not_lt.mpr hlen)]

/-- CSUM records the sum whether or not it agrees (R119). -/
theorem decodePayload_csum (m : Memory) : (decodePayload m).csum = computedChecksum m (frameLength m).toNat := by
  rcases decodePayload_cases m with ⟨-, h⟩ | ⟨-, h⟩
  · rw [h]
    rfl
  · rw [h]
    rfl

theorem decodePayload_code_of_ne {m : Memory} (h : computedChecksum m (frameLength m).toNat ≠ receivedChecksum m) :
    (decodePayload m).code = .checksumMismatch := by
  rw [decodePayload, if_pos h]
  rfl

/-- The lower bound of R122: the two start bytes are always summed. -/
theorem le_exactSum_of_startMatches {m : Memory} (hstart : startMatches m = true) (n : Nat) : 143 ≤ exactSum m (n + 2) := by
  obtain ⟨h0, h1⟩ := (startMatches_iff m).mp hstart
  calc 143 = exactSum m 2 := by simp [exactSum_succ, exactSum_zero, h0, h1]
    _ ≤ exactSum m (n + 2) := exactSum_mono m (Nat.le_add_left 2 n)

end Sys2Proof.Proofs
end

section
/-! What the outcome of a DECODE depends on (41_decode.md R120, R124): frames on which its tests see the same values fail alike
or both succeed. -/

namespace Sys2Proof.Proofs

open Sys2Proof.Machine

/-- Two frames on which the tests of DECODE see the same values, the sum among them where it is computed. -/
structure SameTests (m n : Memory) : Prop where
  got : startPair m = startPair n
  flen : frameLength m = frameLength n
  ckrx : receivedChecksum m = receivedChecksum n
  csum : (frameLength m).toNat ≤ 28 →
    computedChecksum m (frameLength m).toNat = computedChecksum n (frameLength n).toNat

theorem startMatches_eq_of_startPair_eq {m n : Memory} (h : startPair m = startPair n) :
    startMatches m = startMatches n := by
  rw [Bool.eq_iff_iff, ← startPair_eq_marker_iff, ← startPair_eq_marker_iff, h]

/-- A failure shows nothing but what the tests saw, so a reflexive relation between the results of two such frames is left to
show for OK only. -/
theorem decodeFrame_rel {R : DecodeResult → DecodeResult → Prop} (hrefl : ∀ r, R r r) {m n : Memory} (h : SameTests m n)
    (hsuccess : (frameLength m).toNat ≤ 28 → R (success m) (success n)) (c : BitVec 6) :
    R (decodeFrame m c) (decodeFrame n c) := by
  rw [decodeFrame, decodeFrame, startMatches_eq_of_startPair_eq h.got, h.got, h.flen]
  split_ifs with hcount hstart hlen
  · exact hrefl _
  · exact hrefl _
  · exact hrefl _
  · have hfits : (frameLength m).toNat ≤ 28 := by rw [h.flen]; exact Nat.not_lt.mp hlen
    rw [decodePayload, decodePayload, h.csum hfits, h.got, h.flen, h.ckrx]
    split_ifs with hsum
    · exact hrefl _
    · exact hsuccess hfits

/-- What the tests see stands in FBUF[0..31], the summed bytes of a length that passes among it. -/
theorem sameTests_of_agree {m n : Memory} (h : ∀ a, a < 32 → memRead m a = memRead n a) : SameTests m n := by
  have hflen : frameLength m = frameLength n := pairAt_congr h (by decide)
  refine ⟨pairAt_congr h (by decide), hflen, pairAt_congr h (by decide), fun hfits => ?_⟩
  rw [← hflen]
  exact accumulate_congr h _ (by omega)

/-- The 14 fields stand in FBUF[4..31], whatever the frame length is (R115). -/
theorem extractFields_congr {m n : Memory} (h : ∀ a, a < 32 → memRead m a = memRead n a) (flen : Nat) :
    extractFields m flen = extractFields n flen := by
  have hpair : ∀ k : Fin 14, fieldPair m k.val = fieldPair n k.val := fun k =>
    pairAt_congr h (by rw [Config.fieldBase]; omega)
  simp only [extractFields, hpair]

/-- DECODE reads FBUF[0..31] and FCNT and nothing else (R120). -/
theorem decodeFrame_congr {m n : Memory} (h : ∀ a, a < 32 → memRead m a = memRead n a) (c : BitVec 6) :
    decodeFrame m c = decodeFrame n c := by
  have htests := sameTests_of_agree h
  refine decodeFrame_rel (fun _ => rfl) htests (fun hfits => ?_) c
  rw [success, success, htests.csum hfits, htests.got, htests.flen, htests.ckrx, extractFields_congr h]

end Sys2Proof.Proofs
end

section
/-! A frame with two of its bytes swapped (41_decode.md R124), its bytes read through the transposition of their offsets. -/

namespace Sys2Proof.Proofs

open Sys2Proof.Machine

/-- FBUF with the bytes at `i` and `j` swapped. -/
def swapBytes (m : Memory) (i j : Nat) : Memory := memWrite (memWrite m i (memRead m j)) j (memRead m i)

theorem memRead_swapBytes (m : Memory) (i j a : Nat) : memRead (swapBytes m i j) a = memRead m (Equiv.swap i j a) := by
  by_cases hj : a = j
  · rw [hj, swapBytes, memRead_memWrite_same, Equiv.swap_apply_right]
  · rw [swapBytes, memRead_memWrite_other _ _ hj]
    by_cases hi : a = i
    · rw [hi, memRead_memWrite_same, Equiv.swap_apply_left]
    · rw [memRead_memWrite_other _ _ hi, Equiv.swap_apply_of_ne_of_ne hi hj]

theorem pairAt_swapBytes (m : Memory) {i j off : Nat} (hi : off + 1 < i ∨ i < off) (hj : off + 1 < j ∨ j < off) :
    pairAt (swapBytes m i j) off = pairAt m off := by
  rw [pairAt, pairAt, memRead_swapBytes, memRead_swapBytes, Equiv.swap_apply_of_ne_of_ne (by omega) (by omega),
    Equiv.swap_apply_of_ne_of_ne (by omega) (by omega)]

/-- The exact sum as a sum over a set of offsets, in which their order does not count. -/
theorem exactSum_eq_sum (m : Memory) (n : Nat) : exactSum m n = ∑ a ∈ Finset.range n, (memRead m a).toNat := rfl

/-- A sum does not see two of its terms swapped. -/
theorem exactSum_swapBytes (m : Memory) {i j n : Nat} (hi : i < n) (hj : j < n) :
    exactSum (swapBytes m i j) n = exactSum m n := by
  have hmoved : {a | Equiv.swap i j a ≠ a} ⊆ ↑(Finset.range n) := fun a ha => by
    obtain ⟨-, rfl | rfl⟩ := Equiv.swap_apply_ne_self_iff.mp ha
    · simpa using hi
    · simpa using hj
  simp only [exactSum_eq_sum, memRead_swapBytes]
  exact Equiv.Perm.sum_comp (Equiv.swap i j) (Finset.range n) (fun a => (memRead m a).toNat) hmoved

/-- Offsets in [4, flen + 2) are summed, and hold neither the header nor the checksum. -/
theorem sameTests_swapBytes {m : Memory} {i j : Nat} (hlen : pairNat m 2 ≤ 28) (hi4 : 4 ≤ i) (hi : i < pairNat m 2 + 2)
    (hj4 : 4 ≤ j) (hj : j < pairNat m 2 + 2) : SameTests m (swapBytes m i j) := by
  have hflen : frameLength (swapBytes m i j) = frameLength m := pairAt_swapBytes m (by omega) (by omega)
  have hckrx : receivedChecksum (swapBytes m i j) = receivedChecksum m :=
    pairAt_swapBytes (off := 30) m (.inr (by omega)) (.inr (by omega))
  refine ⟨(pairAt_swapBytes m (by omega) (by omega)).symm, hflen.symm, hckrx.symm, fun hfits => ?_⟩
  rw [hflen]
  apply BitVec.eq_of_toNat_eq
  rw [computedChecksum_toNat hfits, computedChecksum_toNat hfits, frameLength_toNat, exactSum_swapBytes m hi hj]

end Sys2Proof.Proofs
end

section
/-! The statements of 41_decode.md. -/

namespace Sys2Proof.Proofs

open Sys2Proof.Machine

/-- Settles O20: FCNT is tested first, and its failure carries no diagnostics. -/
theorem decodeOfShortBuffer : Obligations.DecodeOfShortBuffer := by
  intro arg s hshort
  have hframe : decodeFrame s.fbuf s.fcnt = failure .bufferTooShort 0 0 0 0 := if_pos hshort
  exact ⟨_, exec_decode_of_eq arg hframe, holdsFailure_of_commit s _ rfl rfl rfl rfl, sameInputs_of_commit _ s⟩

/-- Settles O21: the failure of the start test carries the pair of start bytes, whose halves they are. -/
theorem decodeOfBadStartBytes : Obligations.DecodeOfBadStartBytes := by
  intro arg s hcount hbytes
  have hstart : startMatches s.fbuf = false := by
    rw [← Bool.not_eq_true, startMatches_iff, not_and_or]
    exact hbytes
  have hframe : decodeFrame s.fbuf s.fcnt = failure .invalidStart (startPair s.fbuf) 0 0 0 := by
    rw [decodeFrame, Config.frameBytes, if_neg (Nat.not_lt.mpr hcount.ge), if_pos hstart]
  obtain ⟨hhigh, hlow⟩ := startPair_halves s.fbuf
  exact ⟨_, exec_decode_of_eq arg hframe, holdsFailure_of_commit s _ (startPair_toNat _) rfl rfl rfl, hhigh, hlow,
    sameInputs_of_commit _ s⟩

/-- Settles O24: every test passes, so the registers are those of OK. -/
theorem decodeOfValidFrame : Obligations.DecodeOfValidFrame := by
  intro arg s hcount h0 h1 hlen hsum
  obtain ⟨hfield, hgot, hflen, hcsum, hckrx⟩ :=
    success_registers ((startMatches_iff _).mpr ⟨h0, h1⟩) ((frameLength_toNat s.fbuf).trans_le hlen)
  exact ⟨_, exec_decode_of_eq arg (decodeFrame_eq_success hcount h0 h1 hlen hsum), rfl, if_pos rfl, hfield, hgot, hflen,
    hcsum, hckrx, sameInputs_of_commit _ s⟩

/-- Settles O26: the answers of `decodeFrame`, each in its row. -/
theorem resultRegistersByOutcome : Obligations.ResultRegistersByOutcome := by
  intro arg s
  rcases decodeFrame_cases s.fbuf s.fcnt with
    ⟨-, hframe⟩ | ⟨-, -, hframe⟩ | ⟨-, hstart, -, hframe⟩ | ⟨-, hstart, hlen, hframe⟩
  · exact ⟨_, exec_decode_of_eq arg hframe, holdsFailure_of_commit s _ rfl rfl rfl rfl⟩
  · exact ⟨_, exec_decode_of_eq arg hframe, holdsFailure_of_commit s _ (startPair_toNat _) rfl rfl rfl⟩
  · exact ⟨_, exec_decode_of_eq arg hframe,
      holdsFailure_of_commit s _ (startPair_toNat_of_startMatches hstart) (frameLength_toNat _) rfl rfl⟩
  · rcases decodePayload_cases s.fbuf with ⟨-, hpayload⟩ | ⟨-, hpayload⟩
    · exact ⟨_, exec_decode_of_eq arg (hframe.trans hpayload),
        holdsFailure_of_commit s _ (startPair_toNat_of_startMatches hstart) (frameLength_toNat _)
          (computedChecksum_frameLength_toNat hlen) (receivedChecksum_toNat _)⟩
    · exact ⟨_, exec_decode_of_eq arg (hframe.trans hpayload), success_registers hstart hlen⟩

/-- Settles O27: the recorded sum is the exact one, and a received checksum outside its bounds is not equal to it. -/
theorem computedSumIsExactAndBounded : Obligations.ComputedSumIsExactAndBounded := by
  intro arg s hcount h0 h1 hlen
  have hstart := (startMatches_iff s.fbuf).mpr ⟨h0, h1⟩
  have hfits := (frameLength_toNat s.fbuf).trans_le hlen
  have hexact := computedChecksum_frameLength_toNat hfits
  have hlow := le_exactSum_of_startMatches hstart (pairNat s.fbuf 2)
  have hhigh := exactSum_le_of_header hstart hfits
  rw [frameLength_toNat] at hhigh
  refine ⟨_, exec_decode_of_eq arg (decodeFrame_eq_decodePayload hcount.ge hstart hfits), ?_⟩
  rw [respondStatus_csum, commit_csum, decodePayload_csum, hexact]
  refine ⟨rfl, hlow, hhigh, fun hout => decodePayload_code_of_ne fun heq => ?_⟩
  rw [heq, receivedChecksum_toNat] at hexact
  omega

/-- Settles O28: the results committed in the two states are one and the same. -/
theorem decodeDependsOnlyOnBufferAndCount : Obligations.DecodeDependsOnlyOnBufferAndCount := by
  intro a b s u hcount hbytes
  have hframe : decodeFrame u.fbuf u.fcnt = decodeFrame s.fbuf s.fcnt := by rw [decodeFrame_congr hbytes, hcount]
  exact ⟨_, _, exec_decode s a, exec_decode_of_eq b hframe, ⟨rfl, rfl, rfl, rfl, rfl, rfl⟩, sameInputs_of_commit _ s,
    sameInputs_of_commit _ u⟩

/-- Settles O29: the response is STATUS, of which only CODE is new. -/
theorem decodeRespondsWithStatus : Obligations.DecodeRespondsWithStatus := by
  intro arg s
  refine ⟨_, _, exec_decode s arg, rfl, statusWord_toNat _, fun hcode hovr hill => BitVec.eq_of_toNat_eq ?_⟩
  simp only [respondStatus_status, commit_status] at hcode ⊢
  rw [statusWord_toNat, statusNumber, hcode, hovr, hill]
  rfl

/-- Settles O30: the tests see the same values, and where they pass the sums are equal. -/
theorem swappedBytesPassTheSum : Obligations.SwappedBytesPassTheSum := by
  intro arg s i j hlen hi4 hi hj4 hj
  have htests := sameTests_swapBytes hlen hi4 hi hj4 hj
  exact ⟨_, _, exec_decode s arg, exec_decode _ arg, decodeFrame_rel (R := fun r q => q.code = r.code ∧ q.csum = r.csum)
    (fun _ => ⟨rfl, rfl⟩) htests (fun hfits => ⟨rfl, (htests.csum hfits).symm⟩) s.fcnt⟩

/-- Settles O31: `combine` puts its operands side by side, so they are read back from its halves. -/
theorem combineJoinsExactly : Obligations.CombineJoinsExactly := by
  have hhalves : ∀ h l : Byte, (combine h l).extractLsb' 8 8 = h ∧ (combine h l).extractLsb' 0 8 = l := fun h l => by
    rw [combine_eq_append]
    exact ⟨opOf_append h l, argOf_append h l⟩
  refine ⟨fun h l => ⟨combine_toNat h l, hhalves h l⟩, fun h l h' l' heq => ?_, by decide, by decide⟩
  obtain ⟨hhigh, hlow⟩ := hhalves h l
  obtain ⟨hhigh', hlow'⟩ := hhalves h' l'
  rw [heq] at hhigh hlow
  exact ⟨hhigh.symm.trans hhigh', hlow.symm.trans hlow'⟩

/-- Settles O38: DECODE only commits its result and responds. -/
theorem frameOfDecode : Obligations.FrameOfDecode := by
  intro arg s
  exact ⟨_, exec_decode s arg, sameInputs_of_commit _ s⟩

end Sys2Proof.Proofs
end

section
/-! The last result across a run of commands (42_read.md R152): as long as no DECODE is among them, it stands. -/

namespace Sys2Proof.Proofs

open Sys2Proof.Machine

theorem sameResults_refl (s : State) : sameResults s s := ⟨rfl, rfl, rfl, rfl, rfl, rfl⟩

theorem sameResults_trans {s t u : State} (hst : sameResults s t) (htu : sameResults t u) : sameResults s u := by
  obtain ⟨hfield, hflen, hcsum, hckrx, hgot, hcode⟩ := hst
  obtain ⟨hfield', hflen', hcsum', hckrx', hgot', hcode'⟩ := htu
  exact ⟨hfield'.trans hfield, hflen'.trans hflen, hcsum'.trans hcsum, hckrx'.trans hckrx, hgot'.trans hgot,
    hcode'.trans hcode⟩

/-- The observable Measurement is read off CODE and FIELD (R24). -/
theorem measurement_eq_of_sameResults {s t : State} (h : sameResults s t) : measurement t = measurement s := by
  obtain ⟨hfield, -, -, -, -, hcode⟩ := h
  rw [measurement, measurement, hcode, hfield]

/-- A run of commands without a DECODE completes, takes just those commands off the port and keeps the last result. -/
theorem run_without_decode {is : List Instr} {s : State} {rest : List HostEvent}
    (his : ∀ i ∈ is, i.wellFormed = true ∧ ∀ arg, i ≠ .decode arg) (hport : s.port = commandEvents is ++ rest) :
    ∃ t, run is.length s = .next t ∧ sameResults s t ∧ t.port = rest := by
  induction is generalizing s with
  | nil => exact ⟨s, run_zero s, sameResults_refl s, hport⟩
  | cons i is ih =>
    obtain ⟨⟨hwf, hdecode⟩, his'⟩ := List.forall_mem_cons.mp his
    obtain ⟨u, heffect, hexec⟩ := exists_commandEffect i { s with port := commandEvents is ++ rest }
    have hfirst : sameResults { s with port := commandEvents is ++ rest } u := sameResults_of_exec hdecode hexec
    obtain ⟨t, hrun, hresults, hrest⟩ := ih his' (port_of_commandEffect heffect)
    exact ⟨t, (run_commandEvents_cons is.length hwf hport hexec).trans hrun, sameResults_trans hfirst hresults, hrest⟩

end Sys2Proof.Proofs
end

section
/-! The unfilled slots of FBUF (42_read.md R150): the bytes from FCNT on, which READ shows as 0. -/

namespace Sys2Proof.Proofs

open Sys2Proof.Machine

/-- FBUF holds 0 from FCNT on. -/
def UnfilledZero (s : State) : Prop := ∀ a, s.fcnt.toNat ≤ a → memRead s.fbuf a = 0

/-- A byte appended with room fills the first unfilled slot, and the slots behind it stay as they are (R92). -/
theorem appendByte_unfilledZero {s : State} (b : Byte) (hroom : s.fcnt.toNat < 32) (hs : UnfilledZero s) :
    UnfilledZero (appendByte b s) := by
  intro a ha
  have hcount : (s.fcnt + 1).toNat = s.fcnt.toNat + 1 := by bv_omega
  rw [appendByte_fcnt, hcount] at ha
  rw [appendByte_fbuf, memRead_memWrite_other _ _ (by omega)]
  exact hs a (by omega)

/-- Only CLEAR and a PUSH with room write FBUF or FCNT, and each leaves 0 from FCNT on. -/
theorem exec_keeps_unfilledZero {i : Instr} {s t : State} (hs : UnfilledZero s) (h : exec i s = .next t) :
    UnfilledZero t := by
  cases commandEffect_of_exec h with
  | clear => exact fun a _ => memRead_nil a
  | pushRoom b hroom => exact appendByte_unfilledZero b hroom hs
  | nop | pushFull | decode | read | reserved => exact hs

end Sys2Proof.Proofs
end

section
/-! The statements of 42_read.md. -/

namespace Sys2Proof.Proofs

open Sys2Proof.Machine

/-- Settles O42: the run keeps the results command by command, and the Measurement is read off them. -/
theorem resultsStandUntilTheNextDecode : Obligations.ResultsStandUntilTheNextDecode := by
  intro s is rest his hport
  obtain ⟨t, hrun, hresults, hrest⟩ := run_without_decode his hport
  exact ⟨t, hrun, hresults, measurement_eq_of_sameResults hresults, hrest⟩

/-- Settles O47: commands keep the bound on FCNT and the zeros from FCNT on, and a reset lists no cell. -/
theorem unfilledSlotsStayZero : Obligations.UnfilledSlotsStayZero := by
  intro s t hle hzero h
  exact step_preserves (P := fun u => u.fcnt.toNat ≤ 32 ∧ UnfilledZero u) (fun _ _ hs => hs)
    (fun _ => ⟨Nat.zero_le 32, fun a _ => memRead_nil a⟩)
    (fun _ _ _ ⟨hle', hzero'⟩ hexec => ⟨exec_keeps_fcnt_le hle' hexec, exec_keeps_unfilledZero hzero' hexec⟩)
    ⟨hle, hzero⟩ h

end Sys2Proof.Proofs
end

section
/-! The order of the failure conditions of DECODE (60_exceptions.md R176), each condition as arithmetic on the bytes. -/

namespace Sys2Proof.Proofs

open Sys2Proof.Machine

theorem startMatches_eq_false_iff (m : Memory) : startMatches m = false ↔ memRead m 0 ≠ 0x42 ∨ memRead m 1 ≠ 0x4D := by
  rw [← Bool.not_eq_true, startMatches_iff, not_and_or]

/-- Of a length that passes, the test of step 5 compares the exact sum with bytes 30 and 31 (R117). -/
theorem computedChecksum_eq_receivedChecksum_iff {m : Memory} (hlen : (frameLength m).toNat ≤ 28) :
    computedChecksum m (frameLength m).toNat = receivedChecksum m ↔ exactSum m (pairNat m 2 + 2) = pairNat m 30 := by
  rw [← BitVec.toNat_inj, computedChecksum_frameLength_toNat hlen, receivedChecksum_toNat]

theorem decodeFrame_eq_lenOutOfRange {m : Memory} {c : BitVec 6} (hcount : 32 ≤ c.toNat) (hstart : startMatches m = true)
    (hlong : 28 < (frameLength m).toNat) :
    decodeFrame m c = failure .lenOutOfRange (startPair m) (frameLength m) 0 0 := by
  rw [decodeFrame, Config.frameBytes, Config.maxFlen, if_neg (Nat.not_lt.mpr hcount), if_neg (by simp [hstart]), if_pos hlong]

theorem decodePayload_eq_checksumMismatch {m : Memory} (hlen : (frameLength m).toNat ≤ 28)
    (hsum : exactSum m (pairNat m 2 + 2) ≠ pairNat m 30) :
    decodePayload m = failure .checksumMismatch (startPair m) (frameLength m)
      (computedChecksum m (frameLength m).toNat) (receivedChecksum m) :=
  if_pos ((computedChecksum_eq_receivedChecksum_iff hlen).not.mpr hsum)

/-- CODE after a DECODE, the first failure that applies. -/
theorem decodeFrame_code (m : Memory) (c : BitVec 6) : (decodeFrame m c).code =
    (if c.toNat < 32 then .bufferTooShort
     else if memRead m 0 ≠ 0x42 ∨ memRead m 1 ≠ 0x4D then .invalidStart
     else if 28 < pairNat m 2 then .lenOutOfRange
     else if exactSum m (pairNat m 2 + 2) ≠ pairNat m 30 then .checksumMismatch
     else .ok) := by
  simp only [← startMatches_eq_false_iff, ← frameLength_toNat]
  rcases decodeFrame_cases m c with
    ⟨hshort, hframe⟩ | ⟨hcount, hstart, hframe⟩ | ⟨hcount, hstart, hlong, hframe⟩ | ⟨hcount, hstart, hlen, hframe⟩
  · rw [hframe, if_pos hshort]
    rfl
  · rw [hframe, if_neg (Nat.not_lt.mpr hcount), if_pos hstart]
    rfl
  · rw [hframe, if_neg (Nat.not_lt.mpr hcount), if_neg (by simp [hstart]), if_pos hlong]
    rfl
  · rw [hframe, if_neg (Nat.not_lt.mpr hcount), if_neg (by simp [hstart]), if_neg (Nat.not_lt.mpr hlen), frameLength_toNat]
    rcases decodePayload_cases m with ⟨hsum, hpayload⟩ | ⟨hsum, hpayload⟩
    · rw [hpayload, if_pos ((computedChecksum_eq_receivedChecksum_iff hlen).not.mp hsum)]
      rfl
    · rw [hpayload, if_neg (not_not.mpr ((computedChecksum_eq_receivedChecksum_iff hlen).mp hsum))]
      rfl

end Sys2Proof.Proofs
end

section
/-! The statements of 60_exceptions.md. -/

namespace Sys2Proof.Proofs

open Sys2Proof.Machine

/-- Settles O22: the failure of the length test carries the marker and the length. -/
theorem decodeOfBadLength : Obligations.DecodeOfBadLength := by
  intro arg s hcount h0 h1 hlong
  have hstart := (startMatches_iff s.fbuf).mpr ⟨h0, h1⟩
  have hframe := decodeFrame_eq_lenOutOfRange hcount.ge hstart (hlong.trans_eq (frameLength_toNat s.fbuf).symm)
  exact ⟨_, exec_decode_of_eq arg hframe,
    holdsFailure_of_commit s _ (startPair_toNat_of_startMatches hstart) (frameLength_toNat _) rfl rfl,
    sameInputs_of_commit _ s⟩

/-- Settles O23: the failure of the checksum test carries both sums, of which the computed one is exact. -/
theorem decodeOfBadChecksum : Obligations.DecodeOfBadChecksum := by
  intro arg s hcount h0 h1 hlen hsum
  have hstart := (startMatches_iff s.fbuf).mpr ⟨h0, h1⟩
  have hfits := (frameLength_toNat s.fbuf).trans_le hlen
  have hframe := (decodeFrame_eq_decodePayload hcount.ge hstart hfits).trans (decodePayload_eq_checksumMismatch hfits hsum)
  exact ⟨_, exec_decode_of_eq arg hframe,
    holdsFailure_of_commit s _ (startPair_toNat_of_startMatches hstart) (frameLength_toNat _)
      (computedChecksum_frameLength_toNat hfits) (receivedChecksum_toNat _),
    sameInputs_of_commit _ s⟩

/-- Settles O25: the CODE committed is that of the decode. -/
theorem decodeReportsFirstFailure : Obligations.DecodeReportsFirstFailure := by
  intro arg s
  exact ⟨_, exec_decode s arg, decodeFrame_code s.fbuf s.fcnt⟩

/-- Settles O40: a PUSH into a full buffer raises OVR, a reserved opcode ILL, CLEAR clears both, and the other effects leave
both as they were. -/
theorem stickyFlagsSetAndCleared : Obligations.StickyFlagsSetAndCleared := by
  intro i s t h
  cases commandEffect_of_exec h with
  | clear arg => simp
  | pushRoom b hroom => simp [Nat.not_le.mpr hroom]
  | pushFull b hfull => simp [hfull]
  | reserved op arg => simp
  | nop | decode | read => simp

end Sys2Proof.Proofs
end

section
/-! What the reset event leaves (70_reset_and_hazards.md R190), and that every command leaves a response (R196). -/

namespace Sys2Proof.Proofs

open Sys2Proof.Machine

/-- The reset event leaves every register at the value of R34, whatever the state before it. -/
theorem registersReset_applyReset (s : State) : registersReset (applyReset s) :=
  ⟨memRead_nil, rfl, zeroFields_get, rfl, rfl, rfl, rfl, rfl, rfl, rfl⟩

/-- The results after the reset event are those of the launch state. -/
theorem sameResults_reset_applyReset (s : State) : sameResults State.reset (applyReset s) := ⟨rfl, rfl, rfl, rfl, rfl, rfl⟩

/-- Every effect of a command ends in driving a response. -/
theorem exists_rsp_of_commandEffect {i : Instr} {s t : State} (h : CommandEffect s i t) : ∃ r, t.rsp = some r := by
  cases h with
  | nop | clear | pushRoom | pushFull | decode | read | reserved => exact ⟨_, rfl⟩

/-- Every word decodes to a command, so a step that takes one off the port ends with a response. -/
theorem step_command_responds {s : State} {w : Word} {rest : List HostEvent} (hport : s.port = .command w :: rest) :
    ∃ t r, step s = .next t ∧ t.rsp = some r ∧ t.port = rest := by
  obtain ⟨t, heffect, hexec⟩ := exists_commandEffect (decodeCommand w) { s with port := rest }
  obtain ⟨r, hrsp⟩ := exists_rsp_of_commandEffect heffect
  exact ⟨t, r, (step_command s hport).trans hexec, hrsp, port_of_commandEffect heffect⟩

end Sys2Proof.Proofs
end

section
/-! The statements of 70_reset_and_hazards.md. -/

namespace Sys2Proof.Proofs

open Sys2Proof.Machine

/-- Settles O9: the launch state is what a reset of it leaves, and a reset step applies the reset to its state. -/
theorem resetEventAppliesResetValues : Obligations.ResetEventAppliesResetValues := by
  refine ⟨registersReset_applyReset State.reset, rfl, fun s rest hport => ?_⟩
  exact ⟨_, step_reset s hport, registersReset_applyReset _, rfl, rfl⟩

/-- Settles O11: each of the three kinds of step answers, and one of a command word responds. -/
theorem everyCommandWordIsAnsweredInOneStep : Obligations.EveryCommandWordIsAnsweredInOneStep := by
  refine ⟨fun s => ?_, fun s w rest hport => step_command_responds hport⟩
  match hport : s.port with
  | [] => exact ⟨s, step_idle s hport⟩
  | .command w :: rest =>
    obtain ⟨t, -, hstep, -, -⟩ := step_command_responds hport
    exact ⟨t, hstep⟩
  | .reset :: rest => exact ⟨_, step_reset s hport⟩

/-- Settles O43: CLEAR by O16, the reset by its values; both leave FBUF reading 0 throughout. -/
theorem resetAndClearDifferInResultsOnly : Obligations.ResetAndClearDifferInResultsOnly := by
  intro arg s rest hport
  obtain ⟨-, hclear⟩ := clearEmptiesBufferAndKeepsResults
  obtain ⟨u, hexec, hbytes, hcount, hovr, hill, -, hresults, -⟩ := hclear arg s
  have hreset : sameResults State.reset (applyReset { s with port := rest }) := sameResults_reset_applyReset _
  exact ⟨_, u, step_reset s hport, hexec, hbytes, memRead_nil, hcount, rfl, hovr, rfl, hill, rfl, hresults, hreset,
    measurement_eq_of_sameResults hreset⟩

end Sys2Proof.Proofs
end
